-- ==== Sys2Proof/Word.lean ====
section
/-! DEFINITION. The word of the block: a signed integer of W bits, W a parameter (spec 00_scope.md R8, R10).

The spec computes on mathematical integers and never selects bits of a word (R10, R70), so a word is an `Int`;
that it lies in [WMIN, WMAX] is part of the invariant of Safety.lean. -/

namespace Sys2Proof

/-- A word: memory word, register value or operand (R8, R10). -/
abbrev Word := Int

/-- A string of the constant pool: a finite sequence of code words (10_state.md R26). -/
abbrev Str := List Word

/-- `WMIN` = -2^(W-1) (R10). -/
def wordMin (W : Nat) : Word := -((2 ^ (W - 1) : Nat) : Int)

/-- `WMAX` = 2^(W-1) - 1 (R10). -/
def wordMax (W : Nat) : Word := ((2 ^ (W - 1) : Nat) : Int) - 1

/-- A word of W bits: `WMIN <= w <= WMAX` (R8, R10). -/
def inRange (W : Nat) (w : Word) : Bool := decide (wordMin W ≤ w) && decide (w ≤ wordMax W)

end Sys2Proof
end

