-- ==== Sys2Proof/Config.lean ====
section
/-! DEFINITION. The parameters of the block (spec 00_scope.md R6 to R9, 10_state.md R34).

`Params` is the record of the parameters a model takes as an argument. `exec` and `step` take a state only, so the
record is carried in State (the model's own field `params`, which nothing changes): a statement about every state is a
statement about every value of the parameters. The values of this hardware are in Machine/Params.lean. -/

namespace Sys2Proof

/-- `MEM_CAP`: words of instruction memory of every frame (R6). -/
def memCap : Nat := 4096

/-- `REG_CAP`: general registers of every frame (R7). -/
def regCap : Nat := 1000

/-- `OVERFLOW_POLICY` (R9, 43_alu.md R157). -/
inductive OverflowPolicy where
  | fault
  | wrap
deriving DecidableEq, Repr

/-- `PRINT_MODE1` (R9, 45_output.md R202). -/
inductive PrintMode1 where
  | indirect
  | direct
deriving DecidableEq, Repr

/-- The parameters of one block (R8, R9). -/
structure Params where
  /-- `WORD_BITS`, OPEN (R8). -/
  wordBits : Nat
  /-- `MAX_CALL_DEPTH`, OPEN (R9). -/
  maxCallDepth : Nat
  /-- `OVERFLOW_POLICY` (R9). -/
  overflowPolicy : OverflowPolicy
  /-- `PRINT_MODE1` (R9). -/
  printMode1 : PrintMode1
deriving DecidableEq, Repr

/-- The spec's constraints on the OPEN parameters: W >= 16 (R8) and MAX_CALL_DEPTH >= 1 (R9). -/
def Params.ok (p : Params) : Bool := decide (16 ≤ p.wordBits) && decide (1 ≤ p.maxCallDepth)

/-- `CHAR_DECODE`, OPEN: the map from a word to a character, or to none, at the output boundary (R9, 92_eei_decisions.md
D13). A free value: it has no body, so no proof can see what it is. Log entry 10. -/
opaque charDecode : Word → Option Char

end Sys2Proof
end

