-- ==== Sys2Proof/Machine/Params.lean ====
section
/-! DEFINITION. The parameter values of the block that `State.reset` builds (spec 00_scope.md R9). -/

namespace Sys2Proof.Machine

/-- `OVERFLOW_POLICY = fault` and `PRINT_MODE1 = indirect` are the spec's decided values (43_alu.md R157, 45_output.md
R202). `WORD_BITS` and `MAX_CALL_DEPTH` are OPEN: 64 and 8 are DESIGN CHOICES within the conventions of
95_test_vectors.md (log entries 1 and 2), and no statement rests on them. -/
def hardwareParams : Params :=
  { wordBits := 64, maxCallDepth := 8, overflowPolicy := .fault, printMode1 := .indirect }

end Sys2Proof.Machine
end

