-- ==== Sys2Proof/Machine/State.lean ====
section
/-! DEFINITION. The state of the block as plain data (spec 10_state.md), its reset, and the reasons a step stops. -/

namespace Sys2Proof.Machine

/-- An array of words by index, in one canonical form: indices strictly rising, no entry equal to 0. An index that is not
listed holds 0, the value `new()` gives every word (10_state.md R35; log entry 4). -/
abbrev Cells := List (Nat × Word)

/-- The instruction memory `M` of a frame: `memCap` words (R21, R29). -/
abbrev Memory := Cells

/-- The register file `x` of a frame: `regCap` words (R21, R24). -/
abbrev RegFile := Cells

/-- The function table `F`: a finite map from strings to bodies (R27), names strictly rising in `strLt` (Ops.lean). -/
abbrev FunTable := List (Str × List Word)

/-- A frame `(M, x, K, F, pc)` (R21). -/
structure Frame where
  /-- `M` (R29). -/
  mem : Memory
  /-- `x` (R24). -/
  regs : RegFile
  /-- `K`, oldest constant first (R26). -/
  consts : List Str
  /-- `F` (R27). -/
  funs : FunTable
  /-- `pc`, in [0, MEM_CAP] (R28). -/
  pc : Nat
deriving DecidableEq, Repr

/-- The eight fault kinds (60_exceptions.md R240). -/
inductive FaultKind where
  | registerOutOfRange
  | unboundFunction
  | divisionByZero
  | memoryOverrun
  | arithmeticOverflow
  | constantOutOfRange
  | invalidPrintMode
  | callDepthExceeded
deriving DecidableEq, Repr

/-- The fault record (60_exceptions.md R244). -/
structure FaultRecord where
  kind : FaultKind
  /-- The depth of the frame that faulted, 1 for top level. -/
  depth : Nat
  /-- The opcode index of the faulting instruction in that frame. -/
  pc : Nat
  /-- The recorded value of R240. -/
  value : Word
deriving DecidableEq, Repr

/-- The status register (R31). -/
inductive Status where
  | idle
  | running
  | halted
  | faulted (r : FaultRecord)
deriving DecidableEq, Repr

/-- Which block lacks its delimiter (R32). -/
inductive BlockKind where
  | constant
  | function
deriving DecidableEq, Repr

/-- The events of the output port (R32). -/
inductive Event where
  | num (v : Word)
  | str (s : Str)
  | unrecognized (depth pc : Nat) (w : Word)
  | unterminated (depth pc : Nat) (which : BlockKind)
deriving DecidableEq, Repr

/-- The block (10_state.md section 8). The context stack `S = [f_1, ..., f_d]` is `parents.reverse ++ [active]`, which is
non-empty whatever the fields hold (R22). -/
structure State where
  /-- The parameters, the model's own field: they are not state (R34), and nothing changes them (log entry 1). -/
  params : Params
  /-- The active frame `f_d` (R22). -/
  active : Frame
  /-- The frames below it, the active frame's caller first and the top-level frame last. -/
  parents : List Frame
  /-- `status` (R31). -/
  status : Status
  /-- `out`, oldest event first (R32). -/
  out : List Event
deriving DecidableEq, Repr

/-- Why `step` answers no next state: no step is enabled (R31, R100). A fault of the BLOCK is no such reason: it is the
next state with status Faulted (log entry 5). -/
inductive Fault where
  /-- Raised by `step` alone, in status Idle: no run has begun (R31, R100). Safe. -/
  | notStarted
  /-- Raised by `step` alone, in status Halted, which is terminal (R31). Safe. -/
  | halted
  /-- Raised by `step` alone, in status Faulted, which is terminal (R31, 60_exceptions.md R245). Safe. -/
  | faulted (r : FaultRecord)
deriving DecidableEq, Repr

/-- Why the model gives no meaning. -/
inductive Refusal where
  /-- An arm of `exec` without a meaning; no arm is left so. Safe. -/
  | notModelled (mnemonic : String)
  /-- Raised by each host operation (`hostNew`, `hostLoad`, `hostStart`, `hostDump`) while the block is Running: the host
  cannot act then (10_state.md R20, 70_reset_and_hazards.md R277). Safe. -/
  | hostActsWhileRunning
  /-- Raised by the host operation `hostStart` in status Faulted: `new()` is required first (70_reset_and_hazards.md R273).
  Safe. -/
  | runAfterFault (r : FaultRecord)
deriving DecidableEq, Repr

/-- What the host sees of a `run` that is followed for a bounded number of steps (70_reset_and_hazards.md R273). -/
inductive RunAnswer where
  /-- The run returned: its final state, whose status is what `run` returns. -/
  | ended (s : State)
  /-- The bound was spent and the block is still Running; a program that hangs answers this for every bound (R106). -/
  | notEnded (s : State)
  /-- `run` cannot be called: the block is already Running (R277). -/
  | unavailable
deriving DecidableEq, Repr

/-- The frame of `new()`: memory and registers zero-filled, pool and table empty, pc 0 (R35). -/
def Frame.new : Frame := { mem := [], regs := [], consts := [], funs := [], pc := 0 }

/-- `new()` of a block with parameters `p` (R35, 70_reset_and_hazards.md R270). -/
def State.new (p : Params) : State :=
  { params := p, active := Frame.new, parents := [], status := .idle, out := [] }

/-- The machine right after reset (R35). -/
def State.reset : State := State.new hardwareParams

end Sys2Proof.Machine
end

