-- ==== Sys2Proof/Machine/Flags.lean ====
section
/-! DEFINITION. What the ALU computes and checks. The block has NO flags, condition codes or predicates (spec 10_state.md
R30); in their place stand the equality comparison (42_control_transfer.md R132), the overflow rule (43_alu.md R157) and the
checks of div (R153). -/

namespace Sys2Proof.Machine

/-- The comparison of jump-if-equal: the same integer (R132). -/
def aluEqual (p q : Word) : Bool := decide (p = q)

/-- What an ALU operation answers. -/
inductive AluResult where
  | value (r : Word)
  | overflow
  | divideByZero
deriving DecidableEq, Repr

/-- The two's-complement reduction `((r - WMIN) mod 2^W) + WMIN` (R157). -/
def wrapWord (W : Nat) (r : Word) : Word := (r - wordMin W) % ((2 ^ W : Nat) : Int) + wordMin W

/-- An exact result against the word range; outside it, `OVERFLOW_POLICY` decides (R157). -/
def overflowCheck (p : Params) (r : Word) : AluResult :=
  if inRange p.wordBits r then .value r
  else
    match p.overflowPolicy with
    | .fault => .overflow
    | .wrap => .value (wrapWord p.wordBits r)

/-- `add` (R150). -/
def aluAdd (p : Params) (x y : Word) : AluResult := overflowCheck p (x + y)

/-- `sub` (R151). -/
def aluSub (p : Params) (x y : Word) : AluResult := overflowCheck p (x - y)

/-- `mul`, the full product (R152). -/
def aluMul (p : Params) (x y : Word) : AluResult := overflowCheck p (x * y)

/-- `div`: zero divisor, then WMIN / -1 under either policy, then the quotient rounded toward zero (R153). -/
def aluDiv (p : Params) (x y : Word) : AluResult :=
  if y = 0 then .divideByZero
  else if x = wordMin p.wordBits ∧ y = -1 then .overflow
  else .value (Int.tdiv x y)

end Sys2Proof.Machine
end

