-- ==== Sys2Proof/Syntax.lean ====
section
/-! DEFINITION. The instructions: one constructor per row of spec/opcode_table.json (spec 30_encoding.md R71, R75). -/

namespace Sys2Proof

/-- An instruction with its operand words (R71, R73). Every operand is a whole word as it stands. -/
inductive Instr where
  /-- `nop`; its two encodings are 0 (`alt = false`) and 1 (`alt = true`), alike in effect (R75, R104). -/
  | nop (alt : Bool)
  /-- `push value, reg` (R120). -/
  | push (value reg : Word)
  /-- `jump target` (R130). -/
  | jump (target : Word)
  /-- `jump-if-equal target, reg, value` (R131). -/
  | jumpIfEqual (target reg value : Word)
  /-- `add rA, rB` (R150). -/
  | add (a b : Word)
  /-- `sub rA, rB` (R151). -/
  | sub (a b : Word)
  /-- `mul rA, rB` (R152). -/
  | mul (a b : Word)
  /-- `div rA, rB` (R153). -/
  | div (a b : Word)
  /-- `function-declare k`, with the body the delimiter scan captured and whether it found the delimiter (R180, R181). -/
  | functionDeclare (k : Word) (body : List Word) (closed : Bool)
  /-- `print mode, reg` (R200). -/
  | print (mode reg : Word)
  /-- `function-call k` (R215). -/
  | functionCall (k : Word)
  /-- `constant-literal`, with the codes the delimiter scan captured and whether it found the delimiter (R180, R185). -/
  | constantLiteral (codes : List Word) (closed : Bool)
  /-- Any other word `w`, a one-word instruction that reports itself (R76, R105). -/
  | unrecognized (w : Word)
deriving DecidableEq, Repr

/-- The fourteen answers of the opcode comparison (R101): thirteen opcode values and "any other word". -/
inductive Opcode where
  | nop0 | nop1 | push | jump | jumpIfEqual | add | sub | mul | div
  | functionDeclare | print | functionCall | constantLiteral | unrecognized
deriving DecidableEq, Repr

end Sys2Proof
end

