-- ==== Sys2Proof/Machine/Opcodes.lean ====
section
/-! DEFINITION. The named opcode constants (spec 00_scope.md R9, 30_encoding.md R74, R75), hexadecimal as written (D22). -/

namespace Sys2Proof

/-- `OP_NOP0`. -/
def opNop0 : Word := 0x0
/-- `OP_NOP1`. -/
def opNop1 : Word := 0x1
/-- `OP_PUSH`. -/
def opPush : Word := 0x2
/-- `OP_JUMP`. -/
def opJump : Word := 0x3
/-- `OP_JEQ`. -/
def opJeq : Word := 0x4
/-- `OP_ADD`. -/
def opAdd : Word := 0x5
/-- `OP_SUB`. -/
def opSub : Word := 0x6
/-- `OP_MUL`. -/
def opMul : Word := 0x7
/-- `OP_DIV`. -/
def opDiv : Word := 0x8
/-- `OP_FUNC`, also the closing delimiter of a function body (R71). -/
def opFunc : Word := 0x9
/-- `OP_PRINT`, sixteen. -/
def opPrint : Word := 0x10
/-- `OP_CALL`, seventeen. -/
def opCall : Word := 0x11
/-- `OP_CONST`, twenty-one, also the closing delimiter of a constant (R71). -/
def opConst : Word := 0x15

/-- The opcode map (R75), one row per opcode value. -/
def opcodeTable : List (Word × Opcode) :=
  [(opNop0, .nop0), (opNop1, .nop1), (opPush, .push), (opJump, .jump), (opJeq, .jumpIfEqual), (opAdd, .add),
   (opSub, .sub), (opMul, .mul), (opDiv, .div), (opFunc, .functionDeclare), (opPrint, .print), (opCall, .functionCall),
   (opConst, .constantLiteral)]

/-- The whole fetched word compared with the opcode constants; any other word is unrecognized (R76, R101). -/
def opcodeOf (w : Word) : Opcode := (opcodeTable.lookup w).getD .unrecognized

/-- A word that is none of the thirteen opcode values (R76). -/
def isUnrecognized (w : Word) : Bool := opcodeTable.all (fun row => decide (w ≠ row.1))

end Sys2Proof
end

