-- ==== Sys2Proof/WellFormed.lean ====
section
/-! DEFINITION. Well-formed instructions of a block with W-bit words: those some run of memory words can hold
(spec 30_encoding.md R70 to R78). -/

namespace Sys2Proof

/-- A payload word of a block instruction with delimiter `d`: a W-bit word other than the delimiter (R78). -/
def payloadWord (W : Nat) (d w : Word) : Bool := inRange W w && decide (w ≠ d)

/-- The well-formedness check. Operands are any W-bit words (R73, R77: never checked at decode time); a payload holds no
delimiter (R78); a block fits a frame's memory (R50, R72); an unrecognized word is none of the opcodes (R76). -/
def Instr.wf (W : Nat) : Instr → Bool
  | .nop _ => true
  | .push v i => inRange W v && inRange W i
  | .jump t => inRange W t
  | .jumpIfEqual t i v => inRange W t && inRange W i && inRange W v
  | .add a b => inRange W a && inRange W b
  | .sub a b => inRange W a && inRange W b
  | .mul a b => inRange W a && inRange W b
  | .div a b => inRange W a && inRange W b
  | .functionDeclare k body closed =>
      inRange W k && body.all (payloadWord W opFunc) && decide (body.length + (if closed then 3 else 2) ≤ memCap)
  | .print m i => inRange W m && inRange W i
  | .functionCall k => inRange W k
  | .constantLiteral codes closed =>
      codes.all (payloadWord W opConst) && decide (codes.length + (if closed then 2 else 1) ≤ memCap)
  | .unrecognized w => inRange W w && isUnrecognized w

/-- The end of the instruction is known from its own words: every form but a block without its delimiter, which extends to
the end of memory (R72). -/
def Instr.selfDelimited : Instr → Bool
  | .functionDeclare _ _ closed => closed
  | .constantLiteral _ closed => closed
  | _ => true

end Sys2Proof
end

