-- ==== Sys2Proof/Decode.lean ====
section
/-! DEFINITION. The decoder, from the words of memory at an opcode to the end of memory, and the encoder
(spec 30_encoding.md, 40_fetch_dispatch.md R101 to R102, 44_block_parsers.md R180). -/

namespace Sys2Proof

/-- Why the decoder refuses. Every word decodes (R77), so the one reason is that there is no word at all. -/
inductive DecodeError where
  /-- The list of words is empty: the program counter is at the end of memory, where nothing is fetched (R100). -/
  | noWord
deriving DecidableEq, Repr

/-- `opnd(i)`, i >= 1, over the words that follow the opcode up to the end of memory: the sentinel 0 beyond (R102). -/
def opnd (ws : List Word) (i : Nat) : Word := ws.getD (i - 1) 0

/-- What a delimiter scan answers: the payload, the words after the block, whether the delimiter was found (R180). -/
structure Scan where
  payload : List Word
  rest : List Word
  closed : Bool
deriving DecidableEq, Repr

/-- `scan(s, d)` over the words from index s to the end of memory (R180). -/
def scan (d : Word) : List Word → Scan
  | [] => { payload := [], rest := [], closed := false }
  | w :: ws =>
    if w = d then { payload := [], rest := ws, closed := true }
    else { payload := w :: (scan d ws).payload, rest := (scan d ws).rest, closed := (scan d ws).closed }

/-- `dispatch(w)` (R101): the instruction whose opcode word is `w` and whose following words, to the end of memory, are
`ws`; and the words after it. Total: every word decodes (R77). -/
def decodeWord (w : Word) (ws : List Word) : Instr × List Word :=
  match opcodeOf w with
  | .nop0 => (.nop false, ws)
  | .nop1 => (.nop true, ws)
  | .push => (.push (opnd ws 1) (opnd ws 2), ws.drop 2)
  | .jump => (.jump (opnd ws 1), ws.drop 1)
  | .jumpIfEqual => (.jumpIfEqual (opnd ws 1) (opnd ws 2) (opnd ws 3), ws.drop 3)
  | .add => (.add (opnd ws 1) (opnd ws 2), ws.drop 2)
  | .sub => (.sub (opnd ws 1) (opnd ws 2), ws.drop 2)
  | .mul => (.mul (opnd ws 1) (opnd ws 2), ws.drop 2)
  | .div => (.div (opnd ws 1) (opnd ws 2), ws.drop 2)
  | .functionDeclare =>
    (.functionDeclare (opnd ws 1) (scan opFunc (ws.drop 1)).payload (scan opFunc (ws.drop 1)).closed,
      (scan opFunc (ws.drop 1)).rest)
  | .print => (.print (opnd ws 1) (opnd ws 2), ws.drop 2)
  | .functionCall => (.functionCall (opnd ws 1), ws.drop 1)
  | .constantLiteral => (.constantLiteral (scan opConst ws).payload (scan opConst ws).closed, (scan opConst ws).rest)
  | .unrecognized => (.unrecognized w, ws)

/-- The decoder on any list of words. -/
def decode : List Word → Except DecodeError (Instr × List Word)
  | [] => .error .noWord
  | w :: ws => .ok (decodeWord w ws)

/-- The closing delimiter of a block, when it has one (R71, R182). -/
def closing (d : Word) (closed : Bool) : List Word := if closed then [d] else []

/-- The words of an instruction (R71, R75). -/
def encode : Instr → List Word
  | .nop alt => [if alt then opNop1 else opNop0]
  | .push v i => [opPush, v, i]
  | .jump t => [opJump, t]
  | .jumpIfEqual t i v => [opJeq, t, i, v]
  | .add a b => [opAdd, a, b]
  | .sub a b => [opSub, a, b]
  | .mul a b => [opMul, a, b]
  | .div a b => [opDiv, a, b]
  | .functionDeclare k body closed => opFunc :: k :: (body ++ closing opFunc closed)
  | .print m i => [opPrint, m, i]
  | .functionCall k => [opCall, k]
  | .constantLiteral codes closed => opConst :: (codes ++ closing opConst closed)
  | .unrecognized w => [w]

/-! The host's numbering of an instruction's bits. Words of the table are taken as 64 bits wide (log entry 6), bit 0 the
least significant bit of the first word; there is no byte order to apply (20_memory.md R53). -/

/-- The width at which the host's bit numbering cuts words (DESIGN CHOICE, log entry 6). -/
def tableWordBits : Nat := 64

/-- The two's-complement word of the low `tableWordBits` bits of `n`. -/
def tableWord (n : Nat) : Word :=
  if n % 2 ^ tableWordBits < 2 ^ (tableWordBits - 1) then (n % 2 ^ tableWordBits : Nat)
  else ((n % 2 ^ tableWordBits : Nat) : Int) - ((2 ^ tableWordBits : Nat) : Int)

/-- The first `count` words of the bits of `n`, the low word first. -/
def tableWordsAux : Nat → Nat → List Word
  | 0, _ => []
  | count + 1, n => tableWord n :: tableWordsAux count (n / 2 ^ tableWordBits)

/-- The words of an instruction whose bits are `w`, of which the table gives `nbits`. -/
def tableWords (nbits w : Nat) : List Word :=
  tableWordsAux ((nbits + (tableWordBits - 1)) / tableWordBits) (w % 2 ^ nbits)

/-- A memory that holds those words at index 0 and zeros after them, as a list. -/
def tableImage (nbits w : Nat) : List Word :=
  tableWords nbits w ++ List.replicate (memCap - (tableWords nbits w).length) 0

/-- The instruction the decoder reads from an instruction of the host's bit numbering; none where the words are more than
a memory holds. -/
def decodeTableWord (nbits w : Nat) : Option Instr :=
  if (tableWords nbits w).length ≤ memCap then
    match decode (tableImage nbits w) with
    | .ok r => some r.1
    | .error _ => none
  else none

end Sys2Proof
end

