-- ==== Sys2Proof/Machine/Ops.lean ====
section
/-! DEFINITION. The named operations over memory, registers, pool, table, program counter, output port and context stack;
fault entry (spec 60_exceptions.md R243) and the end of a frame (40_fetch_dispatch.md R100, 46_call_context.md R220). -/

namespace Sys2Proof.Machine

/-! ## Arrays of words -/

/-- The word at index `a`; 0 where none is listed (R35). -/
def Cells.get : Cells → Nat → Word
  | [], _ => 0
  | (k, v) :: rest, a => if k = a then v else Cells.get rest a

/-- No entry for index `a`. -/
def Cells.erase (c : Cells) (a : Nat) : Cells := c.filter (fun e => decide (e.1 ≠ a))

/-- An entry for index `a`, before the first greater index. -/
def Cells.insert : Cells → Nat → Word → Cells
  | [], a, v => [(a, v)]
  | (k, w) :: rest, a, v => if a < k then (a, v) :: (k, w) :: rest else (k, w) :: Cells.insert rest a v

/-- The array with `v` at index `a`, in canonical form. -/
def Cells.set (c : Cells) (a : Nat) (v : Word) : Cells :=
  if v = 0 then c.erase a else (c.erase a).insert a v

/-- The canonical form: every index greater than the ones before it and below `cap`, no zero entry; `lo` is the least
index allowed. -/
def Cells.wfFrom (cap : Nat) : Nat → Cells → Bool
  | _, [] => true
  | lo, (k, v) :: rest => decide (lo ≤ k) && decide (k < cap) && decide (v ≠ 0) && Cells.wfFrom cap (k + 1) rest

/-- The canonical form of an array of `cap` words. -/
def Cells.wf (cap : Nat) (c : Cells) : Bool := Cells.wfFrom cap 0 c

/-- The canonical form of an instruction memory. -/
def Memory.wf (m : Memory) : Bool := Cells.wf memCap m

/-- The canonical form of a register file. -/
def RegFile.wf (x : RegFile) : Bool := Cells.wf regCap x

/-- The words `ws` written from index `a` up; words that would fall at or beyond `memCap` are dropped
(70_reset_and_hazards.md R272). -/
def Memory.load (m : Memory) : Nat → List Word → Memory
  | _, [] => m
  | a, w :: ws => if a < memCap then Memory.load (Cells.set m a w) (a + 1) ws else m

/-- The `n` words from index `a` up. -/
def Memory.window (m : Memory) : Nat → Nat → List Word
  | _, 0 => []
  | a, n + 1 => Cells.get m a :: Memory.window m (a + 1) n

/-! ## The function table -/

/-- A total order on strings, which fixes the order of the table's entries and nothing a program can see (log entry 4). -/
def strLt : Str → Str → Bool
  | [], [] => false
  | [], _ :: _ => true
  | _ :: _, [] => false
  | a :: as, b :: bs => decide (a < b) || (decide (a = b) && strLt as bs)

/-- The body bound to a string, if one is (R27). -/
def FunTable.body : FunTable → Str → Option (List Word)
  | [], _ => none
  | (n, b) :: rest, name => if n = name then some b else FunTable.body rest name

/-- No entry for a name. -/
def FunTable.erase (t : FunTable) (name : Str) : FunTable := t.filter (fun e => decide (e.1 ≠ name))

/-- An entry for a name, before the first greater name. -/
def FunTable.insert : FunTable → Str → List Word → FunTable
  | [], name, b => [(name, b)]
  | (n, c) :: rest, name, b =>
    if strLt name n then (name, b) :: (n, c) :: rest else (n, c) :: FunTable.insert rest name b

/-- `F[name] <- body`: binds or rebinds (R27, 44_block_parsers.md R181). -/
def FunTable.bind (t : FunTable) (name : Str) (b : List Word) : FunTable := (t.erase name).insert name b

/-- The canonical form of a table: names strictly rising. -/
def FunTable.wf : FunTable → Bool
  | [] => true
  | (n, _) :: rest => rest.all (fun e => strLt n e.1) && FunTable.wf rest

/-! ## The active frame -/

/-- The depth: the number of frames (R22). -/
def State.depth (s : State) : Nat := s.parents.length + 1

/-- `MemRead(a, 1)` of the active frame (20_memory.md R51). -/
def State.readMem (s : State) (a : Nat) : Word := Cells.get s.active.mem a

/-- `x[i]` of the active frame (R24). -/
def State.readReg (s : State) (i : Nat) : Word := Cells.get s.active.regs i

/-- `x[i] <- v` (R24). -/
def State.writeReg (s : State) (i : Nat) (v : Word) : State :=
  { s with active := { s.active with regs := Cells.set s.active.regs i v } }

/-- `pc <- a` (R28). -/
def State.setPc (s : State) (a : Nat) : State := { s with active := { s.active with pc := a } }

/-- `adv(k)`: pc <- min(pc + 1 + k, MEM_CAP) (40_fetch_dispatch.md R103). -/
def State.adv (s : State) (k : Nat) : State := s.setPc (min (s.active.pc + 1 + k) memCap)

/-- `emit(e)` (R32). -/
def State.emit (s : State) (e : Event) : State := { s with out := s.out ++ [e] }

/-- `K.append(str)` (R26). -/
def State.appendConst (s : State) (str : Str) : State :=
  { s with active := { s.active with consts := s.active.consts ++ [str] } }

/-- `F[name] <- body` (R27). -/
def State.bindFun (s : State) (name : Str) (body : List Word) : State :=
  { s with active := { s.active with funs := s.active.funs.bind name body } }

/-- The end of a block of `len` words at pc: past the delimiter, or MEM_CAP with the report that it is missing
(44_block_parsers.md R182). The report carries the opcode's own index, so it is made before pc moves. -/
def State.endBlock (s : State) (which : BlockKind) (len : Nat) (closed : Bool) : State :=
  if closed then s.setPc (min (s.active.pc + len) memCap)
  else (s.emit (.unterminated s.depth s.active.pc which)).setPc memCap

/-! ## The context stack -/

/-- The child of a call: zero-filled memory with the body loaded at index 0, copies of the caller's registers, pool and
table, pc 0 (R36, 46_call_context.md R215). -/
def Frame.child (f : Frame) (body : List Word) : Frame :=
  { mem := Memory.load [] 0 body, regs := f.regs, consts := f.consts, funs := f.funs, pc := 0 }

/-- `push child` (46_call_context.md R215). -/
def State.pushFrame (s : State) (child : Frame) : State :=
  { s with active := child, parents := s.active :: s.parents }

/-! ## Fault entry and the end of a frame -/

/-- The state after `raise Fault(kind, value)`: status becomes Faulted with the record, nothing else changes (60 R243, R244). -/
def State.fault (s : State) (kind : FaultKind) (value : Word) : State :=
  { s with status := .faulted { kind := kind, depth := s.depth, pc := s.active.pc, value := value } }

/-- `raise Fault(kind, value)` (60_exceptions.md R243), shared by every instruction. -/
def raiseFault (kind : FaultKind) (value : Word) (s : State) : Host.Outcome State Fault Refusal :=
  .next (s.fault kind value)

/-- The numeric code of a fault kind (60_exceptions.md R240). -/
def FaultKind.code : FaultKind → Nat
  | .registerOutOfRange => 1
  | .unboundFunction => 2
  | .divisionByZero => 3
  | .memoryOverrun => 4
  | .arithmeticOverflow => 5
  | .constantOutOfRange => 6
  | .invalidPrintMode => 7
  | .callDepthExceeded => 8

/-- The step at the active frame's terminal condition: the top-level frame halts the block (40_fetch_dispatch.md R100), a
child is popped and discarded and nothing is copied back (46_call_context.md R220). -/
def endFrame (s : State) : State :=
  match s.parents with
  | [] => { s with status := .halted }
  | caller :: below => { s with active := caller, parents := below }

end Sys2Proof.Machine
end

