-- ==== Sys2Proof/Machine/Operands.lean ====
section
/-! DEFINITION. The operand roles and their checks (spec 30_encoding.md R73): register-index, constant-index, target. A check
that fails raises its fault; one that holds passes what the operand names on. -/

namespace Sys2Proof.Machine

/-- `validReg(i)`: 0 <= i < REG_CAP (00_scope.md R12, 10_state.md R25). -/
def validReg (i : Word) : Bool := decide (0 ≤ i) && decide (i < (regCap : Int))

/-- `validConst(j)`: 0 <= j < |K| (00_scope.md R12). -/
def State.validConst (s : State) (j : Word) : Bool := decide (0 ≤ j) && decide (j < (s.active.consts.length : Int))

/-- `K[j]`, for a valid position (R26). -/
def State.constAt (s : State) (j : Word) : Str := s.active.consts.getD j.toNat []

/-- A register-index operand: `RegisterOutOfRange(i)` unless it is valid (10_state.md R25). -/
def withReg (i : Word) (s : State) (k : Nat → Host.Outcome State Fault Refusal) : Host.Outcome State Fault Refusal :=
  if validReg i then k i.toNat else raiseFault .registerOutOfRange i s

/-- A pool position: `ConstantOutOfRange(j)` unless it is valid (60_exceptions.md R240). -/
def withConst (j : Word) (s : State) (k : Str → Host.Outcome State Fault Refusal) : Host.Outcome State Fault Refusal :=
  if s.validConst j then k (s.constAt j) else raiseFault .constantOutOfRange j s

/-- A taken jump: `check_target(t)` and `pc <- min(t, MEM_CAP)` (42_control_transfer.md R133). -/
def jumpTo (t : Word) (s : State) : Host.Outcome State Fault Refusal :=
  if t < 0 then raiseFault .memoryOverrun t s else .next (s.setPc (min t.toNat memCap))

end Sys2Proof.Machine
end

