-- ==== Sys2Proof/Machine/Arithmetic.lean ====
section
/-! DEFINITION. add, sub, mul, div (spec 43_alu.md R150 to R157). -/

namespace Sys2Proof.Machine

/-- The shared sequence (R154): both checks, both reads, the operation with its own checks, then `x[a] <- r`, then
`x[b] <- 0`. -/
def arithmetic (op : Params → Word → Word → AluResult) (a b : Word) (s : State) : Host.Outcome State Fault Refusal :=
  withReg a s (fun ra =>
    withReg b s (fun rb =>
      match op s.params (s.readReg ra) (s.readReg rb) with
      | .value r => .next (((s.writeReg ra r).writeReg rb 0).adv 2)
      | .overflow => raiseFault .arithmeticOverflow a s
      | .divideByZero => raiseFault .divisionByZero b s))

/-- `add rA, rB` (R150). -/
def execAdd (a b : Word) (s : State) : Host.Outcome State Fault Refusal := arithmetic aluAdd a b s

/-- `sub rA, rB` (R151). -/
def execSub (a b : Word) (s : State) : Host.Outcome State Fault Refusal := arithmetic aluSub a b s

/-- `mul rA, rB` (R152). -/
def execMul (a b : Word) (s : State) : Host.Outcome State Fault Refusal := arithmetic aluMul a b s

/-- `div rA, rB` (R153). -/
def execDiv (a b : Word) (s : State) : Host.Outcome State Fault Refusal := arithmetic aluDiv a b s

end Sys2Proof.Machine
end

