-- ==== Sys2Proof/Machine/Blocks.lean ====
section
/-! DEFINITION. function-declare and constant-literal (spec 44_block_parsers.md R181, R182, R185). -/

namespace Sys2Proof.Machine

/-- `function-declare k` with the scanned body: opcode, constant-index, body and, when closed, the delimiter (R181). -/
def execFunctionDeclare (k : Word) (body : List Word) (closed : Bool) (s : State) : Host.Outcome State Fault Refusal :=
  withConst k s (fun name => .next ((s.bindFun name body).endBlock .function (body.length + 3) closed))

/-- `constant-literal` with the scanned codes: opcode, codes and, when closed, the delimiter (R185). -/
def execConstantLiteral (codes : List Word) (closed : Bool) (s : State) : Host.Outcome State Fault Refusal :=
  .next ((s.appendConst codes).endBlock .constant (codes.length + 2) closed)

end Sys2Proof.Machine
end

