-- ==== Sys2Proof/Machine/CallContext.lean ====
section
/-! DEFINITION. function-call (spec 46_call_context.md R215). The context return is `endFrame` of Ops.lean. -/

namespace Sys2Proof.Machine

/-- `function-call k` (R215): the checks in order, the caller's pc to the return point, the child pushed. -/
def execFunctionCall (k : Word) (s : State) : Host.Outcome State Fault Refusal :=
  withConst k s (fun name =>
    match s.active.funs.body name with
    | none => raiseFault .unboundFunction k s
    | some body =>
      if s.depth = s.params.maxCallDepth then raiseFault .callDepthExceeded (s.depth : Int) s
      else .next ((s.adv 1).pushFrame (s.active.child body)))

end Sys2Proof.Machine
end

