-- ==== Sys2Proof/Machine/ControlTransfer.lean ====
section
/-! DEFINITION. jump and jump-if-equal (spec 42_control_transfer.md R130, R131). -/

namespace Sys2Proof.Machine

/-- `jump target` (R130). -/
def execJump (t : Word) (s : State) : Host.Outcome State Fault Refusal := jumpTo t s

/-- `jump-if-equal target, reg, value`: the register is checked whether or not the jump is taken, the target only when it
is (R131). -/
def execJumpIfEqual (t i v : Word) (s : State) : Host.Outcome State Fault Refusal :=
  withReg i s (fun r => if aluEqual (s.readReg r) v then jumpTo t s else .next (s.adv 3))

end Sys2Proof.Machine
end

