-- ==== Sys2Proof/Machine/DataMovement.lean ====
section
/-! DEFINITION. push (spec 41_data_movement.md R120). -/

namespace Sys2Proof.Machine

/-- `push value, reg` (R120). -/
def execPush (v i : Word) (s : State) : Host.Outcome State Fault Refusal :=
  withReg i s (fun r => .next ((s.writeReg r v).adv 2))

end Sys2Proof.Machine
end

