-- ==== Sys2Proof/Machine/Output.lean ====
section
/-! DEFINITION. print (spec 45_output.md R200, R202). -/

namespace Sys2Proof.Machine

/-- `print 1`: the constant at pool position `j` (R200). -/
def printConst (j : Word) (s : State) : Host.Outcome State Fault Refusal :=
  withConst j s (fun str => .next ((s.emit (.str str)).adv 2))

/-- `print mode, reg` (R200): mode 0 prints the register; mode 1 the constant the register's value names (`indirect`) or the
operand names (`direct`); any other mode faults. -/
def execPrint (m i : Word) (s : State) : Host.Outcome State Fault Refusal :=
  if m = 0 then withReg i s (fun r => .next ((s.emit (.num (s.readReg r))).adv 2))
  else if m = 1 then
    match s.params.printMode1 with
    | .indirect => withReg i s (fun r => printConst (s.readReg r) s)
    | .direct => printConst i s
  else raiseFault .invalidPrintMode m s

end Sys2Proof.Machine
end

