-- ==== Sys2Proof/Machine/Sequencer.lean ====
section
/-! DEFINITION. nop and the unrecognized word (spec 40_fetch_dispatch.md R104, R105). -/

namespace Sys2Proof.Machine

/-- `nop`, both encodings alike (R104). -/
def execNop (_alt : Bool) (s : State) : Host.Outcome State Fault Refusal := .next (s.adv 0)

/-- The unrecognized word: a report, and one word on (R105). -/
def execUnrecognized (w : Word) (s : State) : Host.Outcome State Fault Refusal :=
  .next ((s.emit (.unrecognized s.depth s.active.pc w)).adv 0)

end Sys2Proof.Machine
end

