-- ==== Sys2Proof/Machine/Dispatch.lean ====
section
/-! DEFINITION. One arm per instruction (spec 40_fetch_dispatch.md R101). -/

namespace Sys2Proof.Machine

/-- The meaning of an instruction in a state (R101). -/
def exec (i : Instr) (s : State) : Host.Outcome State Fault Refusal :=
  match i with
  | .nop alt => Sys2Proof.Machine.execNop alt s
  | .push v r => Sys2Proof.Machine.execPush v r s
  | .jump t => Sys2Proof.Machine.execJump t s
  | .jumpIfEqual t r v => Sys2Proof.Machine.execJumpIfEqual t r v s
  | .add a b => Sys2Proof.Machine.execAdd a b s
  | .sub a b => Sys2Proof.Machine.execSub a b s
  | .mul a b => Sys2Proof.Machine.execMul a b s
  | .div a b => Sys2Proof.Machine.execDiv a b s
  | .functionDeclare k body closed => Sys2Proof.Machine.execFunctionDeclare k body closed s
  | .print m r => Sys2Proof.Machine.execPrint m r s
  | .functionCall k => Sys2Proof.Machine.execFunctionCall k s
  | .constantLiteral codes closed => Sys2Proof.Machine.execConstantLiteral codes closed s
  | .unrecognized w => Sys2Proof.Machine.execUnrecognized w s

end Sys2Proof.Machine
end

