-- ==== Sys2Proof/Machine/Fetch.lean ====
section
/-! DEFINITION. Fetching and decoding the instruction at the active frame's program counter (spec 40_fetch_dispatch.md
R100 to R102). -/

namespace Sys2Proof.Machine

/-- The words after the opcode at pc, up to the end of memory: what operand reads and scans can reach (R102,
44_block_parsers.md R180). -/
def Frame.following (f : Frame) : List Word := Memory.window f.mem (f.pc + 1) (memCap - (f.pc + 1))

/-- The words from pc to the end of memory. -/
def Frame.toEnd (f : Frame) : List Word := Memory.window f.mem f.pc (memCap - f.pc)

/-- `w <- MemRead(pc, 1)` and the decoding of `w` (R100, R101). -/
def Frame.fetch (f : Frame) : Instr := (decodeWord (Cells.get f.mem f.pc) f.following).1

end Sys2Proof.Machine
end

