-- ==== Sys2Proof/Machine/Step.lean ====
section
/-! DEFINITION. The step of the block (spec 40_fetch_dispatch.md R100), and the host's way to place one instruction. -/

namespace Sys2Proof.Machine

/-- One step, enabled only while Running (R31, R100): the end of the active frame, or one instruction in it. -/
def step (s : State) : Host.Outcome State Fault Refusal :=
  match s.status with
  | .running => if memCap ≤ s.active.pc then .next (endFrame s) else exec s.active.fetch s
  | .idle => .fault .notStarted
  | .halted => .fault .halted
  | .faulted r => .fault (.faulted r)

/-- The state whose next step runs the instruction of bits `w` in the host's numbering: the active frame's memory holds that
instruction at index 0 and zeros after it, pc is 0 and the block is Running. An instruction may be a whole memory long (a
block without its delimiter, 30_encoding.md R72), so index 0 is the one place where each fits (log entry 6). -/
def State.withFetchWord (s : State) (nbits w : Nat) : State :=
  { s with active := { s.active with mem := Memory.load [] 0 (tableWords nbits w), pc := 0 }, status := .running }

end Sys2Proof.Machine
end

