-- ==== Sys2Proof/Machine/HostPort.lean ====
section
/-! DEFINITION. The host operations `new`, `load`, `run`, `dump` (spec 70_reset_and_hazards.md R270 to R277), the image's
bytes as words (R275) and the output boundary (45_output.md R201). -/

namespace Sys2Proof.Machine

/-- What every host operation begins with: the host acts only while the block is not Running (10_state.md R20,
70_reset_and_hazards.md R277). -/
def betweenRuns {α : Type} (s : State) (answer : Host.Outcome α Fault Refusal) : Host.Outcome α Fault Refusal :=
  if s.status = .running then .refused .hostActsWhileRunning else answer

/-- `new()` on a block that exists: any previous state is discarded (R270), between runs (R277). The parameters are the
block's own. (`State.new` is the `new()` that makes the first block.) -/
def hostNew (s : State) : Host.Outcome State Fault Refusal := betweenRuns s (.next (State.new s.params))

/-- The bottom of the context stack: the last frame of a list, changed by `g`. -/
def changeLast (g : Frame → Frame) : List Frame → List Frame
  | [] => []
  | [f] => [g f]
  | f :: f' :: fs => f :: changeLast g (f' :: fs)

/-- The top-level frame `f_1` (R22). -/
def State.topLevel (s : State) : Frame := s.parents.getLastD s.active

/-- The state with its top-level frame changed by `g`. -/
def State.changeTopLevel (g : Frame → Frame) (s : State) : State :=
  match s.parents with
  | [] => { s with active := g s.active }
  | f :: fs => { s with parents := changeLast g (f :: fs) }

/-- `load(words)`: the image into the top-level frame's memory from index 0, its tail beyond MEM_CAP dropped; in every
status but Running (R272, R277). -/
def hostLoad (words : List Word) (s : State) : Host.Outcome State Fault Refusal :=
  betweenRuns s (.next (s.changeTopLevel (fun f => { f with mem := f.mem.load 0 words })))

/-- The beginning of `run()`: status becomes Running, pc is not reset; refused in Faulted (R273), between runs (R277). -/
def hostStart (s : State) : Host.Outcome State Fault Refusal :=
  betweenRuns s
    (match s.status with
    | .faulted r => .refused (.runAfterFault r)
    | _ => .next { s with status := .running })

/-- `while status = Running: step()`, for at most `n` steps (R273). -/
def runLoop : Nat → State → RunAnswer
  | 0, s => if s.status = .running then .notEnded s else .ended s
  | n + 1, s =>
    match step s with
    | .next t => runLoop n t
    | .fault _ => .ended s
    | .refused _ => .notEnded s

/-- `run()`, followed for at most `n` steps: in Faulted it returns the same status and takes no step (R273). -/
def hostRun (n : Nat) (s : State) : RunAnswer :=
  match hostStart s with
  | .next t => runLoop n t
  | .refused (.runAfterFault _) => .ended s
  | .refused _ => .unavailable
  | .fault _ => .unavailable

/-- A dump limit: exclusive, clamped to [0, cap] (R274). -/
def dumpLimit (limit : Int) (cap : Nat) : Nat := min (max limit 0).toNat cap

/-- `dump(memory-limit, register-limit)`: the top-level frame's first registers, then its first memory words (R274), between
runs (R277). It answers values and no state: it changes none. -/
def hostDump (memoryLimit registerLimit : Int) (s : State) : Host.Outcome (List Word × List Word) Fault Refusal :=
  betweenRuns s (.next (Memory.window s.topLevel.regs 0 (dumpLimit registerLimit regCap),
    Memory.window s.topLevel.mem 0 (dumpLimit memoryLimit memCap)))

/-- The words of an image file: one per byte, `sext_8` (R275). -/
def imageWords (bytes : List (BitVec 8)) : List Word := bytes.map BitVec.toInt

/-- The characters of a string at the output boundary, through `CHAR_DECODE`; a code it does not map is a matter of the
renderer (45_output.md R201, 10_state.md R26). -/
def renderStr (s : Str) : List (Option Char) := s.map charDecode

end Sys2Proof.Machine
end

