-- ==== Sys2Proof/Safety.lean ====
section
/-! DEFINITION. What a legal state is (the invariant every step keeps), what a run is, and the source's own shape of a call:
a fresh interpreter run to completion (spec 46_call_context.md R226). -/

namespace Sys2Proof.Machine

/-- Every word of an array is a W-bit word (00_scope.md R8). -/
def Cells.inRange (W : Nat) (c : Cells) : Bool := c.all (fun e => Sys2Proof.inRange W e.2)

/-- A body the table can hold: W-bit words, none the delimiter (30_encoding.md R78), at most MEM_CAP - 2 of them
(46_call_context.md R215). -/
def bodyWf (W : Nat) (body : List Word) : Bool :=
  body.all (payloadWord W opFunc) && decide (body.length + 2 ≤ memCap)

/-- A constant the pool can hold: W-bit words, none the delimiter (30_encoding.md R78), fewer than MEM_CAP of them. -/
def constWf (W : Nat) (str : Str) : Bool := str.all (payloadWord W opConst) && decide (str.length + 1 ≤ memCap)

/-- A legal frame: canonical memory, registers and table, W-bit words throughout, pc in [0, MEM_CAP] (10_state.md R21 to R28). -/
def Frame.wf (W : Nat) (f : Frame) : Bool :=
  Memory.wf f.mem && Cells.inRange W f.mem && RegFile.wf f.regs && Cells.inRange W f.regs &&
  f.consts.all (constWf W) && FunTable.wf f.funs && f.funs.all (fun e => constWf W e.1 && bodyWf W e.2) &&
  decide (f.pc ≤ memCap)

/-- What the status says of the stack: Halted only with the top-level frame at its end (70_reset_and_hazards.md R278); a fault
record names the active frame and its pc (60_exceptions.md R244); Idle only at depth 1 (10_state.md R31, R35). -/
def State.statusWf (s : State) : Bool :=
  match s.status with
  | .idle => decide (s.parents = [])
  | .running => true
  | .halted => decide (s.parents = []) && decide (s.active.pc = memCap)
  | .faulted r => decide (r.depth = s.depth) && decide (r.pc = s.active.pc) && decide (s.active.pc < memCap)

/-- The invariant as a check. -/
def State.wf (s : State) : Bool :=
  s.params.ok && Frame.wf s.params.wordBits s.active && s.parents.all (Frame.wf s.params.wordBits) &&
  decide (s.depth ≤ s.params.maxCallDepth) && s.statusWf

/-- The invariant: `State.new` has it for all legal parameters and every step keeps it. -/
def State.Inv (s : State) : Prop := s.wf = true

/-! ## Terms of the statements: what a step leaves as it was -/

/-- Parameters, callers and status are as before. -/
def keepsBlock (s t : State) : Prop := t.params = s.params ∧ t.parents = s.parents ∧ t.status = s.status

/-- Every word of the active frame's memory reads as before. -/
def keepsMem (s t : State) : Prop := ∀ a, t.readMem a = s.readMem a

/-- Every register of the active frame but those listed reads as before. -/
def keepsRegsBut (rs : List Nat) (s t : State) : Prop := ∀ i, i ∉ rs → t.readReg i = s.readReg i

/-- The active frame's constant pool is as before. -/
def keepsPool (s t : State) : Prop := t.active.consts = s.active.consts

/-- Every name of the active frame's function table but those listed has the body it had. -/
def keepsTableBut (names : List Str) (s t : State) : Prop :=
  ∀ name, name ∉ names → t.active.funs.body name = s.active.funs.body name

/-- No event was emitted. -/
def keepsOut (s t : State) : Prop := t.out = s.out

/-- The effect of an arithmetic instruction on registers `a` and `b` with result `r` (43_alu.md R154 to R156), and its frame:
`x[a]` is `r` unless `a` is `b`, `x[b]` is 0, pc is past the three words, all else is as before. -/
def consumes (a b : Nat) (r : Word) (s t : State) : Prop :=
  (a ≠ b → t.readReg a = r) ∧ t.readReg b = 0 ∧ keepsRegsBut [a, b] s t ∧
  t.active.pc = min (s.active.pc + 3) memCap ∧
  keepsMem s t ∧ keepsPool s t ∧ keepsTableBut [] s t ∧ keepsOut s t ∧ keepsBlock s t

/-- The effect of a taken jump to `target` (42_control_transfer.md R133), and its frame. -/
def jumps (target : Nat) (s t : State) : Prop :=
  t.active.pc = min target memCap ∧
  keepsRegsBut [] s t ∧ keepsMem s t ∧ keepsPool s t ∧ keepsTableBut [] s t ∧ keepsOut s t ∧ keepsBlock s t

/-- The effect of an instruction that only emits `events` and goes on past `len` words (45_output.md R200,
40_fetch_dispatch.md R104, R105), and its frame. -/
def emitsOnly (events : List Event) (len : Nat) (s t : State) : Prop :=
  t.out = s.out ++ events ∧ t.active.pc = min (s.active.pc + len) memCap ∧
  keepsRegsBut [] s t ∧ keepsMem s t ∧ keepsPool s t ∧ keepsTableBut [] s t ∧ keepsBlock s t

/-- The context stack `[f_1, ..., f_d]`, the top-level frame first (10_state.md R22). -/
def State.stack (s : State) : List Frame := s.parents.reverse ++ [s.active]

/-! ## Runs -/

/-- `s` reaches `t` in `n` steps. -/
def stepsTo : Nat → State → State → Prop
  | 0, s, t => s = t
  | n + 1, s, t => ∃ u, step s = .next u ∧ stepsTo n u t

/-- `s` reaches `t` in `n` steps, the context stack deeper than `d` before each of them. -/
def stepsAbove (d : Nat) : Nat → State → State → Prop
  | 0, s, t => s = t
  | n + 1, s, t => d < s.depth ∧ ∃ u, step s = .next u ∧ stepsAbove d n u t

/-- The source's interpreter, which makes a call by constructing a fresh interpreter, running it to completion and
discarding it (46_call_context.md, opening and R226): the state in which the active frame's interpreter ends (`pc` at
MEM_CAP, or a fault), or none when `fuel` is spent. After a call the caller goes on from ITS OWN state before the call, past
the operand, and takes from the child's end nothing but the output. -/
def nestedRun : Nat → State → Option State
  | 0, _ => none
  | fuel + 1, s =>
    if memCap ≤ s.active.pc then some s
    else
      match exec s.active.fetch s with
      | .next t =>
        if t.status = .running then
          if t.depth = s.depth then nestedRun fuel t
          else
            match nestedRun fuel t with
            | none => none
            | some u => if u.status = .running then nestedRun fuel { s.adv 1 with out := u.out } else some u
        else some t
      | .fault _ => none
      | .refused _ => none

end Sys2Proof.Machine
end

