-- ==== Sys2Proof/Certificates/Slice0/Obligations.lean ====
section
/-! DEFINITION. The statements for the provers. Each docstring names the rules of spec/ it formalises; "the spec's decision
D<n>" marks a clause that rests on a choice the spec itself made (92_eei_decisions.md). All hold for every value of the
parameters, since they are fields of the state. -/

open Sys2Proof Sys2Proof.Machine

/-! ## Encoding -/

/-- For every well-formed instruction, decoding its words gives it back with nothing left over; and, when its end is known
from its own words, whatever words follow are left over. 30_encoding.md R70 to R76, R78. -/
def Obligations.DecodeOfEncodeIsTheInstruction : Prop :=
  ∀ (W : Nat) (i : Instr), i.wf W = true →
    decode (encode i) = .ok (i, []) ∧
    (i.selfDelimited = true → ∀ rest, decode (encode i ++ rest) = .ok (i, rest))

/-- Decoding drops no word: the words of the decoded instruction and those left over are the words decoded, followed by the
zeros (at most three) that stand for operands beyond the end. 30_encoding.md R71, 40_fetch_dispatch.md R102. -/
def Obligations.EncodeOfDecodeIsTheWords : Prop :=
  ∀ (ws : List Word) (i : Instr) (rest : List Word), decode ws = .ok (i, rest) →
    ∃ n, n ≤ 3 ∧ encode i ++ rest = ws ++ List.replicate n 0 ∧ ((encode i).length ≤ ws.length → n = 0)

/-- What the decoder reads from at most a memory's worth of W-bit words is well-formed. 30_encoding.md R70 to R78. -/
def Obligations.DecodedInstructionIsWellFormed : Prop :=
  ∀ (W : Nat) (ws : List Word) (i : Instr) (rest : List Word),
    (∀ w ∈ ws, inRange W w = true) → ws.length ≤ memCap → decode ws = .ok (i, rest) → i.wf W = true

/-- Every word decodes, whatever follows it: a word that is none of the thirteen opcode values is the one-word unrecognized
instruction, and any of the thirteen is one of the twelve instructions, with that word as its opcode. 30_encoding.md R76, R77
(the values are the spec's decision D22). -/
def Obligations.EveryWordDecodes : Prop :=
  ∀ (w : Word) (ws : List Word),
    (w ∉ ([0, 1, 2, 3, 4, 5, 6, 7, 8, 9, 16, 17, 21] : List Word) → decode (w :: ws) = .ok (.unrecognized w, ws)) ∧
    (w ∈ ([0, 1, 2, 3, 4, 5, 6, 7, 8, 9, 16, 17, 21] : List Word) →
      ∃ i rest, decode (w :: ws) = .ok (i, rest) ∧ (encode i).head? = some w ∧ ∀ u, i ≠ .unrecognized u)

/-- Words written out from the encodings of 30_encoding.md R71 and R75 decode to the instructions they stand for. -/
def Obligations.WrittenWordsDecode : Prop :=
  decode [1] = .ok (.nop true, []) ∧
  decode [2, 7, 0] = .ok (.push 7 0, []) ∧
  decode [4, 15, 0, 3] = .ok (.jumpIfEqual 15 0 3, []) ∧
  decode [6, 1, 2, 99] = .ok (.sub 1 2, [99]) ∧
  decode [9, 0, 2, 0, 0, 9, 17] = .ok (.functionDeclare 0 [2, 0, 0] true, [17]) ∧
  decode [16, 1, 5] = .ok (.print 1 5, []) ∧
  decode [17, 3] = .ok (.functionCall 3, []) ∧
  decode [21, 104, 105, 21] = .ok (.constantLiteral [104, 105] true, []) ∧
  decode [10, 2] = .ok (.unrecognized 10, [2])

/-- The delimiter scan of a memory from index `s`: up to the first index that holds the delimiter, or to the end of memory.
44_block_parsers.md R180. -/
def Obligations.ScanStopsAtTheFirstDelimiter : Prop :=
  ∀ (m : Memory) (d : Word) (s : Nat),
    (∀ j, s ≤ j → j < memCap → m.get j = d → (∀ l, s ≤ l → l < j → m.get l ≠ d) →
      scan d (m.window s (memCap - s)) =
        { payload := m.window s (j - s), rest := m.window (j + 1) (memCap - (j + 1)), closed := true }) ∧
    ((∀ l, s ≤ l → l < memCap → m.get l ≠ d) →
      scan d (m.window s (memCap - s)) = { payload := m.window s (memCap - s), rest := [], closed := false })

/-! ## The step -/

/-- The i-th operand of the instruction at pc is the memory word at pc + i, or the sentinel 0 at or beyond MEM_CAP.
40_fetch_dispatch.md R102. -/
def Obligations.OperandIsMemoryOrSentinel : Prop :=
  ∀ (f : Frame) (i : Nat), 1 ≤ i →
    opnd f.following i = if f.pc + i < memCap then Cells.get f.mem (f.pc + i) else 0

/-- A step of a Running block before the end of the frame's memory is the meaning of the instruction its bytes decode to:
`step` adds nothing around `exec`. 40_fetch_dispatch.md R100. -/
def Obligations.StepRunsTheDecodedInstruction : Prop :=
  ∀ (s : State) (i : Instr) (rest : List Word), s.status = .running → s.active.pc < memCap →
    decode s.active.toEnd = .ok (i, rest) → step s = exec i s

/-- The fetched word alone selects the instruction, and its operands are the words after it in memory, the sentinel 0 beyond
the end. 40_fetch_dispatch.md R101, R102; 30_encoding.md R71 (opcode values: the spec's decision D22). -/
def Obligations.StepDispatchesOnTheFetchedWord : Prop :=
  ∀ (s : State) (o : Nat → Word), s.status = .running → s.active.pc < memCap →
    (∀ k, o k = if s.active.pc + k < memCap then s.readMem (s.active.pc + k) else 0) →
    (s.readMem s.active.pc = 0 → step s = exec (.nop false) s) ∧
    (s.readMem s.active.pc = 1 → step s = exec (.nop true) s) ∧
    (s.readMem s.active.pc = 2 → step s = exec (.push (o 1) (o 2)) s) ∧
    (s.readMem s.active.pc = 3 → step s = exec (.jump (o 1)) s) ∧
    (s.readMem s.active.pc = 4 → step s = exec (.jumpIfEqual (o 1) (o 2) (o 3)) s) ∧
    (s.readMem s.active.pc = 5 → step s = exec (.add (o 1) (o 2)) s) ∧
    (s.readMem s.active.pc = 6 → step s = exec (.sub (o 1) (o 2)) s) ∧
    (s.readMem s.active.pc = 7 → step s = exec (.mul (o 1) (o 2)) s) ∧
    (s.readMem s.active.pc = 8 → step s = exec (.div (o 1) (o 2)) s) ∧
    (s.readMem s.active.pc = 9 →
      ∃ sc, sc = scan 9 (s.active.mem.window (s.active.pc + 2) (memCap - (s.active.pc + 2))) ∧
        step s = exec (.functionDeclare (o 1) sc.payload sc.closed) s) ∧
    (s.readMem s.active.pc = 16 → step s = exec (.print (o 1) (o 2)) s) ∧
    (s.readMem s.active.pc = 17 → step s = exec (.functionCall (o 1)) s) ∧
    (s.readMem s.active.pc = 21 →
      ∃ sc, sc = scan 21 (s.active.mem.window (s.active.pc + 1) (memCap - (s.active.pc + 1))) ∧
        step s = exec (.constantLiteral sc.payload sc.closed) s) ∧
    (s.readMem s.active.pc ∉ ([0, 1, 2, 3, 4, 5, 6, 7, 8, 9, 16, 17, 21] : List Word) →
      step s = exec (.unrecognized (s.readMem s.active.pc)) s)

/-- At the active frame's terminal condition the step halts the block at depth 1 and otherwise pops the frame: the caller is
active again with exactly the state it had, and nothing is copied back. 40_fetch_dispatch.md R100, 46_call_context.md R220
(the separate return step is the spec's decision D17). -/
def Obligations.StepAtTheEndOfAFrame : Prop :=
  ∀ s : State, s.status = .running → memCap ≤ s.active.pc →
    (s.depth = 1 → step s = .next { s with status := .halted }) ∧
    (∀ caller below, s.parents = caller :: below → step s = .next { s with active := caller, parents := below })

/-- The step is total while Running: no word of memory, operand or register value stops the model; and runs of the same length
from the same state end in the same state. 40_fetch_dispatch.md R107. -/
def Obligations.StepIsTotalWhileRunning : Prop :=
  (∀ s : State, s.status = .running → ∃ t, step s = .next t) ∧
  (∀ (n : Nat) (s t t' : State), stepsTo n s t → stepsTo n s t' → t = t')

/-- The status register: `new` gives Idle, `run` Running, the end of the top-level frame Halted, `raise` Faulted; and no step
is enabled in Idle, Halted or Faulted. 10_state.md R31 (the register is the spec's decision D31). -/
def Obligations.StatusRegister : Prop :=
  (∀ s : State, s.status ≠ .running → ∃ t, hostNew s = .next t ∧ t.status = .idle) ∧
  (∀ s : State, s.status = .idle ∨ s.status = .halted → ∃ t, hostStart s = .next t ∧ t.status = .running) ∧
  (∀ s : State, s.status = .running → memCap ≤ s.active.pc → s.depth = 1 → ∃ t, step s = .next t ∧ t.status = .halted) ∧
  (∀ (s : State) (k : FaultKind) (v : Word), ∃ t, raiseFault k v s = .next t ∧
    t.status = .faulted { kind := k, depth := s.depth, pc := s.active.pc, value := v }) ∧
  (∀ s : State, s.status ≠ .running → ∀ t, step s ≠ .next t)

/-! ## The instructions: what each does, what it leaves, when it faults -/

/-- nop, both encodings: pc + 1 up to MEM_CAP, nothing else. 40_fetch_dispatch.md R104. -/
def Obligations.NopOnlyAdvances : Prop :=
  ∀ (alt : Bool) (s : State),
    encode (.nop alt) = [if alt then 1 else 0] ∧ ∃ t, exec (.nop alt) s = .next t ∧ emitsOnly [] 1 s t

/-- An unrecognized word: one report with depth, pc and the word, pc + 1, nothing else, and the block goes on.
40_fetch_dispatch.md R105 (the report's content is the spec's decision D23). -/
def Obligations.UnrecognizedWordIsReported : Prop :=
  ∀ (w : Word) (s : State),
    ∃ t, exec (.unrecognized w) s = .next t ∧ emitsOnly [.unrecognized s.depth s.active.pc w] 1 s t

/-- push: the value into the register, all else as before; an invalid index faults; at the last two indices of memory the
missing operands are the sentinel, so that register 0 is written. 41_data_movement.md R120. -/
def Obligations.PushWritesTheRegister : Prop :=
  ∀ (v i : Word) (s : State),
    encode (.push v i) = [2, v, i] ∧
    (0 ≤ i → i < (regCap : Int) →
      ∃ t, exec (.push v i) s = .next t ∧ t.readReg i.toNat = v ∧ keepsRegsBut [i.toNat] s t ∧
        t.active.pc = min (s.active.pc + 3) memCap ∧
        keepsMem s t ∧ keepsPool s t ∧ keepsTableBut [] s t ∧ keepsOut s t ∧ keepsBlock s t) ∧
    (i < 0 ∨ (regCap : Int) ≤ i → exec (.push v i) s = .next (s.fault .registerOutOfRange i)) ∧
    (s.status = .running → s.readMem s.active.pc = 2 → s.active.pc = memCap - 2 →
      ∃ t, step s = .next t ∧ t.readReg 0 = s.readMem (memCap - 1) ∧ t.active.pc = memCap) ∧
    (s.status = .running → s.readMem s.active.pc = 2 → s.active.pc = memCap - 1 →
      ∃ t, step s = .next t ∧ t.readReg 0 = 0 ∧ t.active.pc = memCap)

/-- jump: a target in [0, MEM_CAP) is taken as it stands and one at or beyond MEM_CAP as MEM_CAP; a negative one faults.
42_control_transfer.md R130, R133 (the split is the spec's decision D8). -/
def Obligations.JumpGoesToTheTarget : Prop :=
  ∀ (target : Word) (s : State),
    (0 ≤ target → ∃ t, exec (.jump target) s = .next t ∧ jumps target.toNat s t) ∧
    (target < 0 → exec (.jump target) s = .next (s.fault .memoryOverrun target))

/-- jump-if-equal: taken exactly when the register equals the value; the register is checked first and always, the target
only when the jump is taken. 42_control_transfer.md R131, R132 (the spec's decisions D6 and D8). -/
def Obligations.JumpIfEqualTakesEqual : Prop :=
  ∀ (target i v : Word) (s : State),
    (0 ≤ i → i < (regCap : Int) → s.readReg i.toNat = v → 0 ≤ target →
      ∃ t, exec (.jumpIfEqual target i v) s = .next t ∧ jumps target.toNat s t) ∧
    (0 ≤ i → i < (regCap : Int) → s.readReg i.toNat ≠ v →
      ∃ t, exec (.jumpIfEqual target i v) s = .next t ∧ emitsOnly [] 4 s t) ∧
    (i < 0 ∨ (regCap : Int) ≤ i → exec (.jumpIfEqual target i v) s = .next (s.fault .registerOutOfRange i)) ∧
    (0 ≤ i → i < (regCap : Int) → s.readReg i.toNat = v → target < 0 →
      exec (.jumpIfEqual target i v) s = .next (s.fault .memoryOverrun target))

/-- add, sub and mul when the exact result is a W-bit word: it goes to `x[a]`, 0 to `x[b]` (so to the one register when a is
b), all else as before. 43_alu.md R154, R155; R150, R151, R152 in their result. -/
def Obligations.AddSubMulConsume : Prop :=
  ∀ f ∈ ([(Instr.add, fun x y => x + y), (Instr.sub, fun x y => x - y), (Instr.mul, fun x y => x * y)] :
      List ((Word → Word → Instr) × (Word → Word → Word))),
  ∀ (a b : Word) (s : State), 0 ≤ a → a < (regCap : Int) → 0 ≤ b → b < (regCap : Int) →
    wordMin s.params.wordBits ≤ f.2 (s.readReg a.toNat) (s.readReg b.toNat) →
    f.2 (s.readReg a.toNat) (s.readReg b.toNat) ≤ wordMax s.params.wordBits →
    ∃ t, exec (f.1 a b) s = .next t ∧ consumes a.toNat b.toNat (f.2 (s.readReg a.toNat) (s.readReg b.toNat)) s t

/-- Destructive consume: after an arithmetic instruction that completed, `x[b]` is 0 and, unless a is b, `x[a]` the result, when
that is a word (for div the quotient rounded toward zero: the spec's decision D4, log entry 9). 43_alu.md R155. -/
def Obligations.ArithmeticConsumesRegisterB : Prop :=
  ∀ f ∈ ([(Instr.add, fun x y => x + y), (Instr.sub, fun x y => x - y), (Instr.mul, fun x y => x * y), (Instr.div, Int.tdiv)] :
      List ((Word → Word → Instr) × (Word → Word → Word))),
  ∀ (a b : Word) (s t : State), s.status = .running → exec (f.1 a b) s = .next t → t.status = .running →
    t.readReg b.toNat = 0 ∧
    (a ≠ b → inRange s.params.wordBits (f.2 (s.readReg a.toNat) (s.readReg b.toNat)) = true →
      t.readReg a.toNat = f.2 (s.readReg a.toNat) (s.readReg b.toNat))

/-- add, sub and mul when the exact result is outside the word range: a fault that records a under the policy `fault`; under
`wrap` the W-bit word congruent to it modulo 2^W. The checks apply when a is b too. 43_alu.md R156, R157 (the spec's decision
D3). -/
def Obligations.OverflowFollowsThePolicy : Prop :=
  ∀ f ∈ ([(Instr.add, fun x y => x + y), (Instr.sub, fun x y => x - y), (Instr.mul, fun x y => x * y)] :
      List ((Word → Word → Instr) × (Word → Word → Word))),
  ∀ (a b : Word) (s : State) (r : Word), 0 ≤ a → a < (regCap : Int) → 0 ≤ b → b < (regCap : Int) →
    r = f.2 (s.readReg a.toNat) (s.readReg b.toNat) →
    r < wordMin s.params.wordBits ∨ wordMax s.params.wordBits < r →
    (s.params.overflowPolicy = .fault → exec (f.1 a b) s = .next (s.fault .arithmeticOverflow a)) ∧
    (s.params.overflowPolicy = .wrap →
      ∃ t r', exec (f.1 a b) s = .next t ∧ consumes a.toNat b.toNat r' s t ∧
        wordMin s.params.wordBits ≤ r' ∧ r' ≤ wordMax s.params.wordBits ∧
        ∃ k : Int, r' = r + k * ((2 ^ s.params.wordBits : Nat) : Int))

/-- div: the quotient rounded toward zero, given by its remainder, which is smaller than the divisor and has the dividend's
sign; `x[b]` becomes 0. 43_alu.md R153 (rounding is the spec's decision D4). -/
def Obligations.DivTruncatesTowardZero : Prop :=
  ∀ (a b : Word) (s : State) (p q : Word), 0 ≤ a → a < (regCap : Int) → 0 ≤ b → b < (regCap : Int) →
    p = s.readReg a.toNat → q = s.readReg b.toNat → q ≠ 0 → ¬(p = wordMin s.params.wordBits ∧ q = -1) →
    ∃ t r m, exec (.div a b) s = .next t ∧ consumes a.toNat b.toNat r s t ∧
      p = r * q + m ∧ |m| < |q| ∧ (0 ≤ p → 0 ≤ m) ∧ (p ≤ 0 → m ≤ 0)

/-- div faults on a zero divisor, recording b, and on WMIN / -1, recording a, under either overflow policy. 43_alu.md R153
(the latter is the spec's decision D5). -/
def Obligations.DivFaults : Prop :=
  ∀ (a b : Word) (s : State), 0 ≤ a → a < (regCap : Int) → 0 ≤ b → b < (regCap : Int) →
    (s.readReg b.toNat = 0 → exec (.div a b) s = .next (s.fault .divisionByZero b)) ∧
    (s.readReg a.toNat = wordMin s.params.wordBits → s.readReg b.toNat = -1 →
      exec (.div a b) s = .next (s.fault .arithmeticOverflow a))

/-- The four arithmetic instructions check register a, then register b, before anything else. 43_alu.md R154,
60_exceptions.md R242 (the order is the spec's decision D6). -/
def Obligations.ArithmeticChecksItsRegisters : Prop :=
  ∀ f ∈ [Instr.add, Instr.sub, Instr.mul, Instr.div], ∀ (a b : Word) (s : State),
    (a < 0 ∨ (regCap : Int) ≤ a → exec (f a b) s = .next (s.fault .registerOutOfRange a)) ∧
    (0 ≤ a → a < (regCap : Int) → b < 0 ∨ (regCap : Int) ≤ b → exec (f a b) s = .next (s.fault .registerOutOfRange b))

/-- constant-literal: the string is appended to the pool; pc goes past the delimiter, or to MEM_CAP with the report when there
is none; all else as before. 44_block_parsers.md R185 (the report is the spec's decision D14; that pc stops at MEM_CAP for codes longer than memory holds
is the model's choice, log entry 12: the rule gives pc <- next). -/
def Obligations.ConstantLiteralAppends : Prop :=
  ∀ (codes : List Word) (closed : Bool) (s : State),
    ∃ t, exec (.constantLiteral codes closed) s = .next t ∧
      t.active.consts = s.active.consts ++ [codes] ∧
      (closed = true → t.active.pc = min (s.active.pc + codes.length + 2) memCap ∧ keepsOut s t) ∧
      (closed = false → t.active.pc = memCap ∧ t.out = s.out ++ [.unterminated s.depth s.active.pc .constant]) ∧
      keepsRegsBut [] s t ∧ keepsMem s t ∧ keepsTableBut [] s t ∧ keepsBlock s t

/-- function-declare: the body is bound to the string the constant-index names, an earlier body replaced, every other name
kept; pc past the delimiter, or MEM_CAP with the report; an index outside the pool faults and reports nothing.
44_block_parsers.md R181, 10_state.md R27 (the spec's decisions D9, D14, D21; that pc stops at MEM_CAP for a body longer than
memory holds is the model's choice, log entry 12: the rule gives pc <- next). -/
def Obligations.FunctionDeclareBinds : Prop :=
  ∀ (k : Word) (body : List Word) (closed : Bool) (s : State),
    (∀ name, 0 ≤ k → s.active.consts[k.toNat]? = some name →
      ∃ t, exec (.functionDeclare k body closed) s = .next t ∧
        t.active.funs.body name = some body ∧ keepsTableBut [name] s t ∧
        (closed = true → t.active.pc = min (s.active.pc + body.length + 3) memCap ∧ keepsOut s t) ∧
        (closed = false → t.active.pc = memCap ∧ t.out = s.out ++ [.unterminated s.depth s.active.pc .function]) ∧
        keepsRegsBut [] s t ∧ keepsMem s t ∧ keepsPool s t ∧ keepsBlock s t) ∧
    (k < 0 ∨ (s.active.consts.length : Int) ≤ k →
      exec (.functionDeclare k body closed) s = .next (s.fault .constantOutOfRange k))

/-- A constant-literal in memory, from its opcode to its first delimiter at index `j`: the step appends exactly the words
between, and goes on after the delimiter. 44_block_parsers.md R180, R185. -/
def Obligations.ConstantInMemoryIsAppended : Prop :=
  ∀ (s : State) (j : Nat), s.status = .running → s.readMem s.active.pc = 21 →
    s.active.pc < j → j < memCap → s.readMem j = 21 → (∀ l, s.active.pc < l → l < j → s.readMem l ≠ 21) →
    ∃ t codes, step s = .next t ∧ t.active.consts = s.active.consts ++ [codes] ∧ t.active.pc = j + 1 ∧
      codes.length = j - (s.active.pc + 1) ∧
      (∀ l, s.active.pc < l → l < j → codes.getD (l - (s.active.pc + 1)) 0 = s.readMem l) ∧
      keepsRegsBut [] s t ∧ keepsMem s t ∧ keepsTableBut [] s t ∧ keepsOut s t ∧ keepsBlock s t

/-- print 0: the register's value as an event, pc + 3, nothing else. 45_output.md R200. -/
def Obligations.PrintNumberEmitsTheRegister : Prop :=
  ∀ (i : Word) (s : State), 0 ≤ i → i < (regCap : Int) →
    ∃ t, exec (.print 0 i) s = .next t ∧ emitsOnly [.num (s.readReg i.toNat)] 3 s t

/-- print 1: the constant at the position the register holds under `indirect`, at the operand itself under `direct`.
45_output.md R200, R202 (both readings; the choice for this hardware is the spec's decision D11). -/
def Obligations.PrintStringEmitsTheConstant : Prop :=
  ∀ (i : Word) (s : State) (str : Str),
    (s.params.printMode1 = .indirect → 0 ≤ i → i < (regCap : Int) → 0 ≤ s.readReg i.toNat →
      s.active.consts[(s.readReg i.toNat).toNat]? = some str →
      ∃ t, exec (.print 1 i) s = .next t ∧ emitsOnly [.str str] 3 s t) ∧
    (s.params.printMode1 = .direct → 0 ≤ i → s.active.consts[i.toNat]? = some str →
      ∃ t, exec (.print 1 i) s = .next t ∧ emitsOnly [.str str] 3 s t)

/-- The faults of print, in the order of its checks: mode, register (not read in mode 1 under `direct`), pool position.
45_output.md R200 (the spec's decisions D6, D9, D10). -/
def Obligations.PrintFaults : Prop :=
  ∀ (m i : Word) (s : State),
    (m ≠ 0 → m ≠ 1 → exec (.print m i) s = .next (s.fault .invalidPrintMode m)) ∧
    (m = 0 ∨ (m = 1 ∧ s.params.printMode1 = .indirect) → i < 0 ∨ (regCap : Int) ≤ i →
      exec (.print m i) s = .next (s.fault .registerOutOfRange i)) ∧
    (m = 1 → s.params.printMode1 = .indirect → 0 ≤ i → i < (regCap : Int) →
      s.readReg i.toNat < 0 ∨ (s.active.consts.length : Int) ≤ s.readReg i.toNat →
      exec (.print m i) s = .next (s.fault .constantOutOfRange (s.readReg i.toNat))) ∧
    (m = 1 → s.params.printMode1 = .direct → i < 0 ∨ (s.active.consts.length : Int) ≤ i →
      exec (.print m i) s = .next (s.fault .constantOutOfRange i))

/-- function-call: the caller's pc goes past the operand; a child with the body at index 0 of a zero-filled memory, copies of
registers, pool and table, and pc 0 becomes active; the caller lies below it, otherwise unchanged, and nothing is emitted.
46_call_context.md R215, 10_state.md R36 (the spec's decisions D17, D26). -/
def Obligations.FunctionCallPushesTheChild : Prop :=
  ∀ (k : Word) (s : State) (name : Str) (body : List Word), 0 ≤ k → s.active.consts[k.toNat]? = some name →
    s.active.funs.body name = some body → s.depth ≠ s.params.maxCallDepth →
    ∃ t, exec (.functionCall k) s = .next t ∧ t.depth = s.depth + 1 ∧
      t.parents = { s.active with pc := min (s.active.pc + 2) memCap } :: s.parents ∧
      (∀ a, a < memCap → t.readMem a = body.getD a 0) ∧
      t.active.regs = s.active.regs ∧ t.active.consts = s.active.consts ∧ t.active.funs = s.active.funs ∧
      t.active.pc = 0 ∧ t.params = s.params ∧ t.status = s.status ∧ keepsOut s t

/-- The faults of function-call, in the order of its checks. 46_call_context.md R215, R224 (the spec's decisions D6, D9, D16). -/
def Obligations.FunctionCallFaults : Prop :=
  ∀ (k : Word) (s : State),
    (k < 0 ∨ (s.active.consts.length : Int) ≤ k → exec (.functionCall k) s = .next (s.fault .constantOutOfRange k)) ∧
    (∀ name, 0 ≤ k → s.active.consts[k.toNat]? = some name → s.active.funs.body name = none →
      exec (.functionCall k) s = .next (s.fault .unboundFunction k)) ∧
    (∀ name body, 0 ≤ k → s.active.consts[k.toNat]? = some name → s.active.funs.body name = some body →
      s.depth = s.params.maxCallDepth → exec (.functionCall k) s = .next (s.fault .callDepthExceeded (s.depth : Int)))

/-! ## Rules about the whole machine -/

/-- The invariant holds after `new` for every legal value of the parameters, and at reset. 10_state.md R35. -/
def Obligations.NewBlockIsLegal : Prop :=
  (∀ p : Params, p.ok = true → (State.new p).Inv) ∧ State.reset.Inv

/-- Every step keeps the invariant: canonical memories, registers and tables, W-bit words everywhere, payloads without their
delimiter, pc in [0, MEM_CAP] in every frame, depth within MAX_CALL_DEPTH, and a status that agrees with the stack.
00_scope.md R8, 10_state.md R21 to R28, 30_encoding.md R78, 60_exceptions.md R244. -/
def Obligations.StepKeepsTheInvariant : Prop :=
  ∀ s t : State, s.Inv → step s = .next t → t.Inv

/-- `new`, `load` of W-bit words and the beginning of `run` keep the invariant. 70_reset_and_hazards.md R270, R272, R273. -/
def Obligations.HostOperationsKeepTheInvariant : Prop :=
  ∀ s t : State, s.Inv →
    (∀ words : List Word, (∀ w ∈ words, inRange s.params.wordBits w = true) → hostLoad words s = .next t → t.Inv) ∧
    (hostStart s = .next t → t.Inv) ∧ (hostNew s = .next t → t.Inv)

/-- A fault is precise: an instruction that raises one changes nothing but the status, which records the kind, the depth, the
opcode's index and a value. 60_exceptions.md R243, R244 (atomicity and the record are the spec's decision D7). -/
def Obligations.FaultIsPrecise : Prop :=
  ∀ s t : State, s.status = .running → step s = .next t →
    t.status = .running ∨ (t = { s with status := .halted } ∧ memCap ≤ s.active.pc) ∨
      ∃ r : FaultRecord, r.depth = s.depth ∧ r.pc = s.active.pc ∧ t = { s with status := .faulted r }

/-- A fault raised in any frame at any depth ends the whole run: no frame is popped or resumed, and no step follows.
46_call_context.md R223. -/
def Obligations.FaultEndsTheWholeRun : Prop :=
  ∀ (s t : State) (r : FaultRecord), s.status = .running → step s = .next t → t.status = .faulted r →
    t.active = s.active ∧ t.parents = s.parents ∧ ∀ u, step t ≠ .next u

/-- Which instruction raises which fault, and the value it records; nop, constant-literal and the unrecognized word raise
none. 60_exceptions.md R240 (kinds 5 to 8 are the spec's decisions D3, D5, D9, D10, D16). -/
def Obligations.FaultKindsAndCauses : Prop :=
  ∀ (i : Instr) (s t : State) (r : FaultRecord), s.status = .running → exec i s = .next t → t.status = .faulted r →
    match i with
    | .nop _ => False
    | .unrecognized _ => False
    | .constantLiteral _ _ => False
    | .push _ reg => r.kind = .registerOutOfRange ∧ r.value = reg
    | .jump target => r.kind = .memoryOverrun ∧ r.value = target
    | .jumpIfEqual target reg _ =>
        (r.kind = .registerOutOfRange ∧ r.value = reg) ∨ (r.kind = .memoryOverrun ∧ r.value = target)
    | .add a b => (r.kind = .registerOutOfRange ∧ (r.value = a ∨ r.value = b)) ∨ (r.kind = .arithmeticOverflow ∧ r.value = a)
    | .sub a b => (r.kind = .registerOutOfRange ∧ (r.value = a ∨ r.value = b)) ∨ (r.kind = .arithmeticOverflow ∧ r.value = a)
    | .mul a b => (r.kind = .registerOutOfRange ∧ (r.value = a ∨ r.value = b)) ∨ (r.kind = .arithmeticOverflow ∧ r.value = a)
    | .div a b => (r.kind = .registerOutOfRange ∧ (r.value = a ∨ r.value = b)) ∨
        (r.kind = .divisionByZero ∧ r.value = b) ∨ (r.kind = .arithmeticOverflow ∧ r.value = a)
    | .functionDeclare k _ _ => r.kind = .constantOutOfRange ∧ r.value = k
    | .print m reg => (r.kind = .invalidPrintMode ∧ r.value = m) ∨ (r.kind = .registerOutOfRange ∧ r.value = reg) ∨
        (r.kind = .constantOutOfRange ∧ (r.value = s.readReg reg.toNat ∨ r.value = reg))
    | .functionCall k => (r.kind = .constantOutOfRange ∧ r.value = k) ∨ (r.kind = .unboundFunction ∧ r.value = k) ∨
        (r.kind = .callDepthExceeded ∧ r.value = (s.depth : Int))

/-- The output port only grows: no step removes or reorders an event. 10_state.md R32. -/
def Obligations.OutputOnlyGrows : Prop :=
  ∀ s t : State, step s = .next t → s.out <+: t.out

/-- A frame's memory is written only by `load`, on the top-level frame, and by the creation of a child: no step changes the
memory of a frame that was on the stack. 10_state.md R29. -/
def Obligations.MemoryIsReadOnlyWhileRunning : Prop :=
  (∀ (s t : State) (k : Nat) (f g : Frame), step s = .next t →
    s.stack[k]? = some f → t.stack[k]? = some g → g.mem = f.mem) ∧
  (∀ (words : List Word) (s t : State) (k : Nat) (f g : Frame), hostLoad words s = .next t →
    s.stack[k + 1]? = some f → t.stack[k + 1]? = some g → g.mem = f.mem)

/-- No step changes a frame below the active one. 10_state.md R22, R23. -/
def Obligations.FramesBelowAreUntouched : Prop :=
  ∀ (s t : State) (k : Nat) (f : Frame), step s = .next t → k + 1 < s.depth → s.stack[k]? = some f → t.stack[k]? = some f

/-- No instruction reads a frame below the active one: two blocks that differ only there take the same step.
46_call_context.md R216. -/
def Obligations.FramesBelowAreNotRead : Prop :=
  ∀ (s s' t : State), s.status = .running → s.active.pc < memCap →
    s'.params = s.params → s'.active = s.active → s'.depth = s.depth → s'.status = s.status → s'.out = s.out →
    step s = .next t →
    ∃ t', step s' = .next t' ∧ t'.active = t.active ∧ t'.depth = t.depth ∧ t'.status = t.status ∧ t'.out = t.out

/-- Who writes the registers: a register of a frame on the stack differs after a step only if the frame is the active one and
its instruction is a push or an arithmetic instruction that names the register; and a push is read back as pushed.
41_data_movement.md R121. -/
def Obligations.RegistersChangeOnlyByPushAndArithmetic : Prop :=
  (∀ (s t : State) (k r : Nat) (f g : Frame), step s = .next t → s.stack[k]? = some f → t.stack[k]? = some g →
    Cells.get g.regs r ≠ Cells.get f.regs r →
    k + 1 = s.depth ∧
      ((∃ v i, s.active.fetch = .push v i ∧ i = (r : Int)) ∨
        ∃ a b, (a = (r : Int) ∨ b = (r : Int)) ∧
          (s.active.fetch = .add a b ∨ s.active.fetch = .sub a b ∨ s.active.fetch = .mul a b ∨ s.active.fetch = .div a b))) ∧
  (∀ (v i : Word) (s : State), 0 ≤ i → i < (regCap : Int) →
    ∃ t u, exec (.push v i) s = .next t ∧ exec (.print 0 i) t = .next u ∧ u.out = s.out ++ [.num v])

/-- Who writes pool and table: the pool of a frame on the stack changes only by one append, of the active frame's
constant-literal; its table only by the active frame's function-declare. 10_state.md R26, R27. -/
def Obligations.PoolAndTableWriters : Prop :=
  ∀ (s t : State) (k : Nat) (f g : Frame), step s = .next t → s.stack[k]? = some f → t.stack[k]? = some g →
    (g.consts ≠ f.consts →
      k + 1 = s.depth ∧ ∃ codes closed, s.active.fetch = .constantLiteral codes closed ∧ g.consts = f.consts ++ [codes]) ∧
    (g.funs ≠ f.funs →
      k + 1 = s.depth ∧ ∃ j body closed name, s.active.fetch = .functionDeclare j body closed ∧
        f.consts[j.toNat]? = some name ∧ g.funs = f.funs.bind name body)

/-- The parameters never change. 10_state.md R34: they are not state (that they are carried in State is the model's choice, log
entry 1). -/
def Obligations.ParametersNeverChange : Prop :=
  ∀ s t : State, step s = .next t → t.params = s.params

/-- After an instruction that completes, the frame that ran it has a greater pc, or it was a jump or jump-if-equal that set pc
to its target, clamped. 40_fetch_dispatch.md R108, 10_state.md R28. -/
def Obligations.PcIncreasesOrIsRedirected : Prop :=
  ∀ (s t : State) (g : Frame), s.status = .running → s.active.pc < memCap → step s = .next t → t.status = .running →
    t.stack[s.depth - 1]? = some g →
    g.pc ≤ memCap ∧
      (s.active.pc < g.pc ∨
        ∃ target : Word, 0 ≤ target ∧ g.pc = min target.toNat memCap ∧
          (s.active.fetch = .jump target ∨ ∃ i v, s.active.fetch = .jumpIfEqual target i v))

/-- Call isolation: when a call has returned, the caller's registers, constants, functions and memory are exactly as before it,
its pc has advanced by 2 (clamped), the frames below are as before, and the output may have grown, whatever the callee did.
46_call_context.md R222. -/
def Obligations.CallIsolation : Prop :=
  ∀ (s t u : State) (k : Word) (n : Nat), s.status = .running → s.active.pc < memCap →
    s.active.fetch = .functionCall k → step s = .next t → t.status = .running →
    stepsAbove s.depth n t u → u.depth = s.depth →
    u.active = { s.active with pc := min (s.active.pc + 2) memCap } ∧ u.parents = s.parents ∧ u.status = .running ∧
      s.out <+: u.out

/-- The stack machine does what the source's interpreter does: whatever end a nested run reaches (the active frame's end or a
fault), the block reaches by steps. 46_call_context.md R226, derived there. -/
def Obligations.NestedRunIsAStackRun : Prop :=
  ∀ (fuel : Nat) (s u : State), s.status = .running → nestedRun fuel s = some u →
    (∃ n, stepsTo n s u) ∧
      ((u.status = .running ∧ u.parents = s.parents ∧ memCap ≤ u.active.pc) ∨ ∃ r, u.status = .faulted r)

/-- Conversely, a run of the block from depth 1 that ends, ends as a nested run of some length does: with the same final state
but for Halted, which the last step sets, and so with the same output and status. 46_call_context.md R226, derived there. -/
def Obligations.EndedStackRunIsANestedRun : Prop :=
  ∀ (n : Nat) (s t : State), s.status = .running → s.parents = [] → stepsTo n s t → t.status ≠ .running →
    ∃ fuel u, nestedRun fuel s = some u ∧
      ((u.status = .running ∧ t = { u with status := .halted }) ∨ (u.status ≠ .running ∧ t = u))

/-! ## The host's operations -/

/-- The host acts only while the block is not Running: while it is, each of the four operations is refused and `run` is not
available; while it is not, `new`, `load` and `dump` answer, and `run` begins unless the block is Faulted.
10_state.md R20, 70_reset_and_hazards.md R277, R273 (that `load` is taken in Faulted and `run` refused there are the spec's
decisions D28 and D29; the form of the refusal is the model's, log entry 8). -/
def Obligations.HostActsOnlyBetweenRuns : Prop :=
  ∀ (s : State) (words : List Word) (ml rl : Int) (n : Nat),
    (s.status = .running →
      hostNew s = .refused .hostActsWhileRunning ∧ hostLoad words s = .refused .hostActsWhileRunning ∧
      hostStart s = .refused .hostActsWhileRunning ∧ hostDump ml rl s = .refused .hostActsWhileRunning ∧
      hostRun n s = .unavailable) ∧
    (s.status ≠ .running →
      (∃ t, hostNew s = .next t) ∧ (∃ t, hostLoad words s = .next t) ∧ (∃ d, hostDump ml rl s = .next d) ∧
      (∀ r, s.status = .faulted r → hostStart s = .refused (.runAfterFault r)) ∧
      (s.status = .idle ∨ s.status = .halted → ∃ t, hostStart s = .next t))

/-- After reset and after `new` from any state between runs, Faulted included, every field has the value the spec gives it:
depth 1, every memory word and register 0, pool and table empty, pc 0, Idle, no output. 10_state.md R35,
70_reset_and_hazards.md R270 (status, depth and output are the spec's decision D31). -/
def Obligations.NewBlockState : Prop :=
  (∀ s : State, s.status ≠ .running → ∃ t, hostNew s = .next t) ∧
  ∀ t : State, (t = State.reset ∨ ∃ s, hostNew s = .next t) →
    t.depth = 1 ∧ (∀ a, a < memCap → t.readMem a = 0) ∧ (∀ i, i < regCap → t.readReg i = 0) ∧
    t.active.consts = [] ∧ (∀ name, t.active.funs.body name = none) ∧ t.active.pc = 0 ∧ t.status = .idle ∧ t.out = []

/-- `load`: the first MEM_CAP words of the image into the top-level frame's memory, the other words kept, nothing else changed;
accepted in every status but Running. 70_reset_and_hazards.md R272 (the spec's decisions D15, D28). -/
def Obligations.LoadWritesTheImage : Prop :=
  ∀ (words : List Word) (s : State), s.status ≠ .running →
    ∃ t f g, hostLoad words s = .next t ∧ s.stack[0]? = some f ∧ t.stack[0]? = some g ∧
      (∀ j, j < memCap → Cells.get g.mem j = if j < words.length then words.getD j 0 else Cells.get f.mem j) ∧
      g.regs = f.regs ∧ g.consts = f.consts ∧ g.funs = f.funs ∧ g.pc = f.pc ∧
      (∀ k, t.stack[k + 1]? = s.stack[k + 1]?) ∧ t.params = s.params ∧ t.status = s.status ∧ t.out = s.out

/-- `dump`, between runs: the top-level frame's registers and memory words below the limits, which are exclusive and clamped to
the capacities. 70_reset_and_hazards.md R274 (the spec's decision D24). -/
def Obligations.DumpReadsTheTopLevelFrame : Prop :=
  ∀ (ml rl : Int) (s : State) (f : Frame), s.status ≠ .running → s.stack[0]? = some f →
    ∃ regs mem, hostDump ml rl s = .next (regs, mem) ∧
      (regs.length : Int) = min (max rl 0) (regCap : Int) ∧ (mem.length : Int) = min (max ml 0) (memCap : Int) ∧
      (∀ i, i < regs.length → regs.getD i 0 = Cells.get f.regs i) ∧
      (∀ a, a < mem.length → mem.getD a 0 = Cells.get f.mem a)

/-- `run`: from Idle or Halted it goes on from the current pc until Halted or Faulted; in Faulted it takes no step and returns
the same status; after Halted at MEM_CAP it halts again at its first step. 70_reset_and_hazards.md R273 (the spec's decisions
D19, D29). -/
def Obligations.RunEndsHaltedOrFaulted : Prop :=
  (∀ (n : Nat) (s t : State), s.status = .idle ∨ s.status = .halted → hostRun n s = .ended t →
    (∃ m, m ≤ n ∧ stepsTo m { s with status := .running } t) ∧ (t.status = .halted ∨ ∃ r, t.status = .faulted r)) ∧
  (∀ (n : Nat) (s : State) (r : FaultRecord), s.status = .faulted r → hostRun n s = .ended s) ∧
  (∀ (n : Nat) (s : State), s.status = .halted → s.parents = [] → memCap ≤ s.active.pc → hostRun (n + 1) s = .ended s)

/-- An image byte becomes a word in [-128, 127] by sign extension. 70_reset_and_hazards.md R275. -/
def Obligations.ImageBytesAreSignExtended : Prop :=
  ∀ (bytes : List (BitVec 8)) (j : Nat) (b : BitVec 8), bytes[j]? = some b →
    (imageWords bytes)[j]? = some (if b.toNat < 128 then (b.toNat : Int) else (b.toNat : Int) - 256)

/-- The instruction the host places is the one the next step runs (the model's own interface, log entry 6). -/
def Obligations.PlacedWordIsRun : Prop :=
  ∀ (s : State) (nbits w : Nat) (i : Instr), decodeTableWord nbits w = some i →
    step (s.withFetchWord nbits w) = exec i (s.withFetchWord nbits w)
end

