-- ==== Sys2Proof/Laws/Cells.lean ====
section
/-! SUPPORT. Laws of the word arrays: read after write, and that every operation keeps the canonical form. -/

namespace Sys2Proof.Machine

@[simp] theorem get_nil (a : Nat) : Cells.get [] a = 0 := rfl

theorem erase_cons_same {e : Nat × Word} (rest : Cells) {a : Nat} (h : e.1 = a) :
    Cells.erase (e :: rest) a = Cells.erase rest a := by
  simp [Cells.erase, h]

theorem erase_cons_ne {e : Nat × Word} (rest : Cells) {a : Nat} (h : e.1 ≠ a) :
    Cells.erase (e :: rest) a = e :: Cells.erase rest a := by
  simp [Cells.erase, h]

theorem get_erase_same (c : Cells) (a : Nat) : (c.erase a).get a = 0 := by
  induction c with
  | nil => rfl
  | cons e rest ih =>
    by_cases h : e.1 = a
    · rw [erase_cons_same rest h, ih]
    · rw [erase_cons_ne rest h]
      simpa [Cells.get, h] using ih

theorem get_erase_ne (c : Cells) {a b : Nat} (h : b ≠ a) : (c.erase a).get b = c.get b := by
  induction c with
  | nil => rfl
  | cons e rest ih =>
    by_cases ha : e.1 = a
    · have hb : e.1 ≠ b := fun hb => h (hb.symm.trans ha)
      rw [erase_cons_same rest ha, ih]
      simp [Cells.get, hb]
    · rw [erase_cons_ne rest ha]
      simp [Cells.get, ih]

theorem get_insert_ne (c : Cells) {a b : Nat} (v : Word) (h : b ≠ a) : (c.insert a v).get b = c.get b := by
  induction c with
  | nil => simp [Cells.insert, Cells.get, Ne.symm h]
  | cons e rest ih =>
    simp only [Cells.insert]
    split
    · simp [Cells.get, Ne.symm h]
    · simp [Cells.get, ih]

theorem get_insert_erase (c : Cells) (a : Nat) (v : Word) : ((c.erase a).insert a v).get a = v := by
  induction c with
  | nil => simp [Cells.erase, Cells.insert, Cells.get]
  | cons e rest ih =>
    by_cases h : e.1 = a
    · rw [erase_cons_same rest h, ih]
    · rw [erase_cons_ne rest h]
      simp only [Cells.insert]
      split
      · simp [Cells.get]
      · simpa [Cells.get, h] using ih

/-- A read of the index just written gives the value written. -/
@[simp] theorem get_set_same (c : Cells) (a : Nat) (v : Word) : (c.set a v).get a = v := by
  by_cases hv : v = 0
  · simpa [Cells.set, hv] using get_erase_same c a
  · simpa [Cells.set, hv] using get_insert_erase c a v

/-- A write leaves every other index alone. -/
theorem get_set_ne (c : Cells) {a b : Nat} (v : Word) (h : b ≠ a) : (c.set a v).get b = c.get b := by
  by_cases hv : v = 0
  · simpa [Cells.set, hv] using get_erase_ne c h
  · simp [Cells.set, hv, get_insert_ne _ v h, get_erase_ne c h]

theorem wfFrom_mono {cap lo lo' : Nat} (c : Cells) (h : lo ≤ lo') (hc : Cells.wfFrom cap lo' c = true) :
    Cells.wfFrom cap lo c = true := by
  cases c with
  | nil => rfl
  | cons e rest =>
    simp only [Cells.wfFrom, Bool.and_eq_true, decide_eq_true_eq] at hc ⊢
    exact ⟨⟨⟨h.trans hc.1.1.1, hc.1.1.2⟩, hc.1.2⟩, hc.2⟩

theorem erase_wfFrom {cap lo : Nat} (c : Cells) (a : Nat) (hc : Cells.wfFrom cap lo c = true) :
    Cells.wfFrom cap lo (c.erase a) = true := by
  induction c generalizing lo with
  | nil => rfl
  | cons e rest ih =>
    simp only [Cells.wfFrom, Bool.and_eq_true, decide_eq_true_eq] at hc
    have hr := ih hc.2
    by_cases h : e.1 = a
    · rw [erase_cons_same rest h]
      exact wfFrom_mono _ (hc.1.1.1.trans (Nat.le_succ _)) hr
    · rw [erase_cons_ne rest h]
      simp only [Cells.wfFrom, Bool.and_eq_true, decide_eq_true_eq]
      exact ⟨hc.1, hr⟩

theorem erase_keys_ne (c : Cells) (a : Nat) : ∀ e ∈ c.erase a, e.1 ≠ a := by
  intro e he
  simpa [Cells.erase] using (List.mem_filter.mp he).2

theorem insert_wfFrom {cap lo : Nat} (c : Cells) {a : Nat} {v : Word} (hlo : lo ≤ a) (ha : a < cap) (hv : v ≠ 0)
    (hne : ∀ e ∈ c, e.1 ≠ a) (hc : Cells.wfFrom cap lo c = true) : Cells.wfFrom cap lo (c.insert a v) = true := by
  induction c generalizing lo with
  | nil => simp [Cells.insert, Cells.wfFrom, hlo, ha, hv]
  | cons e rest ih =>
    simp only [Cells.wfFrom, Bool.and_eq_true, decide_eq_true_eq] at hc
    by_cases h : a < e.1
    · simp only [Cells.insert, h, if_true, Cells.wfFrom, Bool.and_eq_true, decide_eq_true_eq]
      exact ⟨⟨⟨hlo, ha⟩, hv⟩, ⟨⟨Nat.succ_le_of_lt h, hc.1.1.2⟩, hc.1.2⟩, hc.2⟩
    · have hgt : e.1 + 1 ≤ a := by
        have := hne e (List.mem_cons_self ..)
        omega
      simp only [Cells.insert, h, if_false, Cells.wfFrom, Bool.and_eq_true, decide_eq_true_eq]
      exact ⟨hc.1, ih hgt (fun e' he' => hne e' (List.mem_cons_of_mem _ he')) hc.2⟩

/-- Writing below the capacity keeps the canonical form. -/
theorem set_wf {cap : Nat} (c : Cells) {a : Nat} (v : Word) (ha : a < cap) (hc : Cells.wf cap c = true) :
    Cells.wf cap (c.set a v) = true := by
  by_cases hv : v = 0
  · simp only [Cells.set, hv, if_true]
    exact erase_wfFrom c a hc
  · simp only [Cells.set, hv, if_false]
    exact insert_wfFrom _ (Nat.zero_le _) ha hv (erase_keys_ne c a) (erase_wfFrom c a hc)

/-- Loading words keeps the canonical form of a memory. -/
theorem load_wf (m : Memory) (a : Nat) (ws : List Word) (h : Memory.wf m = true) : Memory.wf (m.load a ws) = true := by
  induction ws generalizing m a with
  | nil => exact h
  | cons w ws ih =>
    simp only [Memory.load]
    split
    · exact ih _ _ (set_wf m w ‹_› h)
    · exact h

/-- A word below the place a load begins at is kept. -/
theorem get_load_below (m : Memory) {a b : Nat} (ws : List Word) (h : b < a) : (m.load a ws).get b = m.get b := by
  induction ws generalizing m a with
  | nil => rfl
  | cons w ws ih =>
    simp only [Memory.load]
    split
    · rw [ih _ (by omega), get_set_ne _ _ (by omega)]
    · rfl

/-- What a load leaves at an index of the memory: the word of the image that falls there, or the old word past its end. -/
theorem get_load (m : Memory) (a : Nat) (ws : List Word) {b : Nat} (hab : a ≤ b) (hb : b < memCap) :
    (m.load a ws).get b = if b - a < ws.length then ws.getD (b - a) 0 else m.get b := by
  induction ws generalizing m a with
  | nil => simp [Memory.load]
  | cons w ws ih =>
    have ha : a < memCap := lt_of_le_of_lt hab hb
    simp only [Memory.load, ha, if_true]
    rcases Nat.eq_or_lt_of_le hab with rfl | hlt
    · rw [get_load_below _ _ (Nat.lt_succ_self _), get_set_same]
      simp
    · rw [ih _ _ hlt, get_set_ne _ _ (by omega)]
      obtain ⟨n, rfl⟩ : ∃ n, b = a + 1 + n := ⟨b - (a + 1), by omega⟩
      have h1 : a + 1 + n - (a + 1) = n := by omega
      have h2 : a + 1 + n - a = n + 1 := by omega
      simp [h1, h2]

@[simp] theorem window_length (m : Memory) (a n : Nat) : (m.window a n).length = n := by
  induction n generalizing a with
  | zero => rfl
  | succ n ih => simp [Memory.window, ih]

/-- A word of a window is the memory's word at that index. -/
theorem window_getD (m : Memory) (a n i : Nat) : (m.window a n).getD i 0 = if i < n then m.get (a + i) else 0 := by
  induction n generalizing a i with
  | zero => simp [Memory.window]
  | succ n ih =>
    cases i with
    | zero => simp [Memory.window]
    | succ i =>
      have : a + 1 + i = a + (i + 1) := by omega
      simpa [Memory.window, this] using ih (a + 1) i

theorem window_drop (m : Memory) (a n k : Nat) : (m.window a n).drop k = m.window (a + k) (n - k) := by
  induction k generalizing a n with
  | zero => simp
  | succ k ih =>
    cases n with
    | zero => simp [Memory.window]
    | succ n =>
      have : a + 1 + k = a + (k + 1) := by omega
      simpa [Memory.window, this] using ih (a + 1) n

end Sys2Proof.Machine
end

