-- ==== Sys2Proof/Laws/Decode.lean ====
section
/-! SUPPORT. Laws of the decoder's parts: the opcode comparison, the delimiter scan, operand reads and the words a frame's
fetch sees. -/

namespace Sys2Proof

/-- A scan of a payload without the delimiter, up to the delimiter. -/
theorem scan_closed (d : Word) (payload rest : List Word) (h : ∀ w ∈ payload, w ≠ d) :
    scan d (payload ++ d :: rest) = { payload := payload, rest := rest, closed := true } := by
  induction payload with
  | nil => simp [scan]
  | cons w p ih =>
    have hp := ih (fun x hx => h x (List.mem_cons_of_mem _ hx))
    simp [scan, h w, hp]

/-- A scan that meets no delimiter takes every word. -/
theorem scan_open (d : Word) (payload : List Word) (h : ∀ w ∈ payload, w ≠ d) :
    scan d payload = { payload := payload, rest := [], closed := false } := by
  induction payload with
  | nil => rfl
  | cons w p ih =>
    have hp := ih (fun x hx => h x (List.mem_cons_of_mem _ hx))
    simp [scan, h w, hp]

/-- All a scan can answer: no payload word is the delimiter, no word is lost, and without a delimiter nothing is left. -/
theorem scan_spec (d : Word) (ws : List Word) :
    (∀ w ∈ (scan d ws).payload, w ≠ d) ∧
    (scan d ws).payload ++ (closing d (scan d ws).closed ++ (scan d ws).rest) = ws ∧
    ((scan d ws).closed = false → (scan d ws).rest = []) := by
  induction ws with
  | nil => simp [scan, closing]
  | cons w ws ih =>
    by_cases h : w = d
    · simp [scan, h, closing]
    · obtain ⟨h1, h2, h3⟩ := ih
      simp only [scan, h, if_false]
      refine ⟨fun x hx => ?_, by rw [List.cons_append, h2], h3⟩
      rcases List.mem_cons.mp hx with rfl | hx
      · exact h
      · exact h1 x hx

theorem payload_ne {W : Nat} {d : Word} {l : List Word} (h : l.all (payloadWord W d) = true) : ∀ w ∈ l, w ≠ d := by
  intro w hw
  have hp := List.all_eq_true.mp h w hw
  simp only [payloadWord, Bool.and_eq_true, decide_eq_true_eq] at hp
  exact hp.2

/-- A word that is none of the opcode values is unrecognized. -/
theorem opcodeOf_unrecognized {w : Word} (h : isUnrecognized w = true) : opcodeOf w = .unrecognized := by
  have key : ∀ t : List (Word × Opcode), t.all (fun row => decide (w ≠ row.1)) = true → t.lookup w = none := by
    intro t
    induction t with
    | nil => intro _; rfl
    | cons e t ih =>
      intro ht
      simp only [List.all_cons, Bool.and_eq_true, decide_eq_true_eq] at ht
      have hb : (w == e.1) = false := by simpa using ht.1
      simp [List.lookup, hb, ih ht.2]
  simp [opcodeOf, key _ h]

/-- The opcode comparison: one of the thirteen values with its instruction, or an unrecognized word. -/
theorem opcodeOf_cases (w : Word) :
    (w = opNop0 ∧ opcodeOf w = .nop0) ∨ (w = opNop1 ∧ opcodeOf w = .nop1) ∨ (w = opPush ∧ opcodeOf w = .push) ∨
    (w = opJump ∧ opcodeOf w = .jump) ∨ (w = opJeq ∧ opcodeOf w = .jumpIfEqual) ∨ (w = opAdd ∧ opcodeOf w = .add) ∨
    (w = opSub ∧ opcodeOf w = .sub) ∨ (w = opMul ∧ opcodeOf w = .mul) ∨ (w = opDiv ∧ opcodeOf w = .div) ∨
    (w = opFunc ∧ opcodeOf w = .functionDeclare) ∨ (w = opPrint ∧ opcodeOf w = .print) ∨
    (w = opCall ∧ opcodeOf w = .functionCall) ∨ (w = opConst ∧ opcodeOf w = .constantLiteral) ∨
    (isUnrecognized w = true ∧ opcodeOf w = .unrecognized) := by
  cases h : isUnrecognized w with
  | true => simp [opcodeOf_unrecognized h]
  | false =>
    simp only [isUnrecognized, List.all_eq_false, decide_eq_true_eq, not_not] at h
    obtain ⟨row, hmem, rfl⟩ := h
    simp only [opcodeTable, List.mem_cons, List.not_mem_nil, or_false] at hmem
    rcases hmem with rfl | rfl | rfl | rfl | rfl | rfl | rfl | rfl | rfl | rfl | rfl | rfl | rfl <;> decide

namespace Machine

/-- Operand reads of a frame: memory, or the sentinel 0 beyond the end (spec 40_fetch_dispatch.md R102). -/
theorem opnd_following (f : Frame) {i : Nat} (hi : 1 ≤ i) :
    opnd f.following i = if f.pc + i < memCap then Cells.get f.mem (f.pc + i) else 0 := by
  obtain ⟨n, rfl⟩ : ∃ n, i = n + 1 := ⟨i - 1, by omega⟩
  have hw := window_getD f.mem (f.pc + 1) (memCap - (f.pc + 1)) n
  have ha : f.pc + 1 + n = f.pc + (n + 1) := by omega
  have hc : (n < memCap - (f.pc + 1)) ↔ f.pc + (n + 1) < memCap := by omega
  simpa [opnd, Frame.following, ha, hc] using hw

/-- Before the end of memory the words from pc on are the opcode and the words after it. -/
theorem toEnd_eq (f : Frame) (h : f.pc < memCap) : f.toEnd = Cells.get f.mem f.pc :: f.following := by
  obtain ⟨n, hn⟩ : ∃ n, memCap - f.pc = n + 1 := ⟨memCap - f.pc - 1, by omega⟩
  have hn' : memCap - (f.pc + 1) = n := by omega
  simp [Frame.toEnd, Frame.following, hn, hn', Memory.window]

/-- What a frame fetches is what the decoder reads from the words at its pc. -/
theorem decode_toEnd (f : Frame) (h : f.pc < memCap) : ∃ rest, decode f.toEnd = .ok (f.fetch, rest) :=
  ⟨_, by rw [toEnd_eq f h]; rfl⟩

end Machine

end Sys2Proof
end

