-- ==== Sys2Proof/Laws/Operands.lean ====
section
/-! SUPPORT. What the operand checks and the shared operations answer, each said once. (For `omega` over words, first
`unfold Word at *`.) -/

namespace Sys2Proof.Machine

theorem validReg_iff (i : Word) : validReg i = true ↔ 0 ≤ i ∧ i < (regCap : Int) := by simp [validReg]

theorem validConst_iff (s : State) (j : Word) :
    s.validConst j = true ↔ 0 ≤ j ∧ j < (s.active.consts.length : Int) := by simp [State.validConst]

variable {s : State}

/-- A valid register-index passes the register on. -/
theorem withReg_valid {i : Word} {k : Nat → Host.Outcome State Fault Refusal} (h0 : 0 ≤ i) (h1 : i < (regCap : Int)) :
    withReg i s k = k i.toNat := by
  simp [withReg, (validReg_iff i).mpr ⟨h0, h1⟩]

/-- An invalid register-index faults. -/
theorem withReg_invalid {i : Word} {k : Nat → Host.Outcome State Fault Refusal} (h : i < 0 ∨ (regCap : Int) ≤ i) :
    withReg i s k = .next (s.fault .registerOutOfRange i) := by
  have hv : ¬ validReg i = true := by
    rw [validReg_iff]
    unfold Word at *
    omega
  simp [withReg, hv, raiseFault]

/-- A position that holds a constant passes it on. -/
theorem withConst_valid {j : Word} {k : Str → Host.Outcome State Fault Refusal} {name : Str} (h0 : 0 ≤ j)
    (hn : s.active.consts[j.toNat]? = some name) : withConst j s k = k name := by
  obtain ⟨hl, -⟩ := List.getElem?_eq_some_iff.mp hn
  have hv : s.validConst j = true := by
    rw [validConst_iff]
    unfold Word at *
    omega
  simp [withConst, hv, State.constAt, hn]

/-- A position outside the pool faults. -/
theorem withConst_invalid {j : Word} {k : Str → Host.Outcome State Fault Refusal}
    (h : j < 0 ∨ (s.active.consts.length : Int) ≤ j) : withConst j s k = .next (s.fault .constantOutOfRange j) := by
  have hv : ¬ s.validConst j = true := by
    rw [validConst_iff]
    unfold Word at *
    omega
  simp [withConst, hv, raiseFault]

/-- All that a register-index check can answer. -/
theorem withReg_cases {i : Word} {k : Nat → Host.Outcome State Fault Refusal} {o : Host.Outcome State Fault Refusal}
    (h : withReg i s k = o) :
    o = .next (s.fault .registerOutOfRange i) ∨ (0 ≤ i ∧ i < (regCap : Int) ∧ k i.toNat = o) := by
  by_cases hv : 0 ≤ i ∧ i < (regCap : Int)
  · exact .inr ⟨hv.1, hv.2, by rw [← h, withReg_valid hv.1 hv.2]⟩
  · refine .inl (h.symm.trans (withReg_invalid ?_))
    unfold Word at *
    omega

/-- All that a constant-index check can answer. -/
theorem withConst_cases {j : Word} {k : Str → Host.Outcome State Fault Refusal} {o : Host.Outcome State Fault Refusal}
    (h : withConst j s k = o) :
    o = .next (s.fault .constantOutOfRange j) ∨ ∃ name, 0 ≤ j ∧ s.active.consts[j.toNat]? = some name ∧ k name = o := by
  by_cases hv : 0 ≤ j ∧ j < (s.active.consts.length : Int)
  · have hl : j.toNat < s.active.consts.length := by
      unfold Word at *
      omega
    have hn : s.active.consts[j.toNat]? = some s.active.consts[j.toNat] := by simp [hl]
    exact .inr ⟨_, hv.1, hn, by rw [← h, withConst_valid hv.1 hn]⟩
  · refine .inl (h.symm.trans (withConst_invalid ?_))
    unfold Word at *
    omega

/-- All that a taken jump can answer. -/
theorem jumpTo_eq (t : Word) (s : State) :
    (t < 0 ∧ jumpTo t s = .next (s.fault .memoryOverrun t)) ∨ (0 ≤ t ∧ jumpTo t s = .next (s.setPc (min t.toNat memCap))) := by
  by_cases h : t < 0
  · exact .inl ⟨h, by simp [jumpTo, h, raiseFault]⟩
  · exact .inr ⟨Int.not_lt.mp h, by simp [jumpTo, h]⟩

/-- The shared sequence of the arithmetic instructions once both indices are valid. -/
theorem arithmetic_valid {op : Params → Word → Word → AluResult} {a b : Word} (ha0 : 0 ≤ a) (ha1 : a < (regCap : Int))
    (hb0 : 0 ≤ b) (hb1 : b < (regCap : Int)) :
    arithmetic op a b s =
      match op s.params (s.readReg a.toNat) (s.readReg b.toNat) with
      | .value r => .next (((s.writeReg a.toNat r).writeReg b.toNat 0).adv 2)
      | .overflow => .next (s.fault .arithmeticOverflow a)
      | .divideByZero => .next (s.fault .divisionByZero b) := by
  simp only [arithmetic, withReg_valid ha0 ha1, withReg_valid hb0 hb1]
  rfl

/-- The reduction of `wrap` gives a word of the range, congruent to the exact result (spec 43_alu.md R157). -/
theorem wrapWord_spec (W : Nat) (r : Word) :
    wordMin W ≤ wrapWord W r ∧ wrapWord W r ≤ wordMax W ∧ ∃ k : Int, wrapWord W r = r + k * ((2 ^ W : Nat) : Int) := by
  have hp : (0 : Int) < ((2 ^ W : Nat) : Int) := by exact_mod_cast Nat.two_pow_pos W
  have h1 := Int.emod_nonneg (r - wordMin W) (ne_of_gt hp)
  have h2 := Int.emod_lt_of_pos (r - wordMin W) hp
  have h3 := Int.emod_add_mul_ediv (r - wordMin W) ((2 ^ W : Nat) : Int)
  have h4 : ((2 ^ W : Nat) : Int) ≤ 2 * ((2 ^ (W - 1) : Nat) : Int) := by
    cases W with
    | zero => simp
    | succ n => simp [pow_succ]; omega
  have hmin : wordMin W = -((2 ^ (W - 1) : Nat) : Int) := rfl
  have hmax : wordMax W = ((2 ^ (W - 1) : Nat) : Int) - 1 := rfl
  refine ⟨by unfold wrapWord; linarith, ?_, -((r - wordMin W) / ((2 ^ W : Nat) : Int)), by unfold wrapWord; linarith⟩
  unfold wrapWord
  unfold Word at *
  generalize (r - wordMin W) % ((2 ^ W : Nat) : Int) = z at *
  generalize ((2 ^ W : Nat) : Int) = z1 at *
  generalize ((2 ^ (W - 1) : Nat) : Int) = z2 at *
  omega

/-- All that the overflow check can answer (spec 43_alu.md R157). -/
theorem overflowCheck_cases (p : Params) (r : Word) :
    (inRange p.wordBits r = true ∧ overflowCheck p r = .value r) ∨
    (inRange p.wordBits r = false ∧ p.overflowPolicy = .fault ∧ overflowCheck p r = .overflow) ∨
    (inRange p.wordBits r = false ∧ p.overflowPolicy = .wrap ∧ overflowCheck p r = .value (wrapWord p.wordBits r)) := by
  cases h : inRange p.wordBits r with
  | true => simp [overflowCheck, h]
  | false => cases hp : p.overflowPolicy <;> simp [overflowCheck, h, hp]

end Sys2Proof.Machine
end

