-- ==== Sys2Proof/Laws/State.lean ====
section
/-! SUPPORT. One lemma per field per update of State, each true by rfl. -/

namespace Sys2Proof.Machine

variable (s : State)

@[simp] theorem writeReg_params (i : Nat) (v : Word) : (s.writeReg i v).params = s.params := rfl
@[simp] theorem writeReg_parents (i : Nat) (v : Word) : (s.writeReg i v).parents = s.parents := rfl
@[simp] theorem writeReg_status (i : Nat) (v : Word) : (s.writeReg i v).status = s.status := rfl
@[simp] theorem writeReg_out (i : Nat) (v : Word) : (s.writeReg i v).out = s.out := rfl
@[simp] theorem writeReg_mem (i : Nat) (v : Word) : (s.writeReg i v).active.mem = s.active.mem := rfl
@[simp] theorem writeReg_regs (i : Nat) (v : Word) : (s.writeReg i v).active.regs = Cells.set s.active.regs i v := rfl
@[simp] theorem writeReg_consts (i : Nat) (v : Word) : (s.writeReg i v).active.consts = s.active.consts := rfl
@[simp] theorem writeReg_funs (i : Nat) (v : Word) : (s.writeReg i v).active.funs = s.active.funs := rfl
@[simp] theorem writeReg_pc (i : Nat) (v : Word) : (s.writeReg i v).active.pc = s.active.pc := rfl

@[simp] theorem setPc_params (a : Nat) : (s.setPc a).params = s.params := rfl
@[simp] theorem setPc_parents (a : Nat) : (s.setPc a).parents = s.parents := rfl
@[simp] theorem setPc_status (a : Nat) : (s.setPc a).status = s.status := rfl
@[simp] theorem setPc_out (a : Nat) : (s.setPc a).out = s.out := rfl
@[simp] theorem setPc_mem (a : Nat) : (s.setPc a).active.mem = s.active.mem := rfl
@[simp] theorem setPc_regs (a : Nat) : (s.setPc a).active.regs = s.active.regs := rfl
@[simp] theorem setPc_consts (a : Nat) : (s.setPc a).active.consts = s.active.consts := rfl
@[simp] theorem setPc_funs (a : Nat) : (s.setPc a).active.funs = s.active.funs := rfl
@[simp] theorem setPc_pc (a : Nat) : (s.setPc a).active.pc = a := rfl

@[simp] theorem adv_params (k : Nat) : (s.adv k).params = s.params := rfl
@[simp] theorem adv_parents (k : Nat) : (s.adv k).parents = s.parents := rfl
@[simp] theorem adv_status (k : Nat) : (s.adv k).status = s.status := rfl
@[simp] theorem adv_out (k : Nat) : (s.adv k).out = s.out := rfl
@[simp] theorem adv_mem (k : Nat) : (s.adv k).active.mem = s.active.mem := rfl
@[simp] theorem adv_regs (k : Nat) : (s.adv k).active.regs = s.active.regs := rfl
@[simp] theorem adv_consts (k : Nat) : (s.adv k).active.consts = s.active.consts := rfl
@[simp] theorem adv_funs (k : Nat) : (s.adv k).active.funs = s.active.funs := rfl
@[simp] theorem adv_pc (k : Nat) : (s.adv k).active.pc = min (s.active.pc + 1 + k) memCap := rfl

@[simp] theorem emit_params (e : Event) : (s.emit e).params = s.params := rfl
@[simp] theorem emit_parents (e : Event) : (s.emit e).parents = s.parents := rfl
@[simp] theorem emit_status (e : Event) : (s.emit e).status = s.status := rfl
@[simp] theorem emit_out (e : Event) : (s.emit e).out = s.out ++ [e] := rfl
@[simp] theorem emit_active (e : Event) : (s.emit e).active = s.active := rfl

@[simp] theorem appendConst_params (str : Str) : (s.appendConst str).params = s.params := rfl
@[simp] theorem appendConst_parents (str : Str) : (s.appendConst str).parents = s.parents := rfl
@[simp] theorem appendConst_status (str : Str) : (s.appendConst str).status = s.status := rfl
@[simp] theorem appendConst_out (str : Str) : (s.appendConst str).out = s.out := rfl
@[simp] theorem appendConst_mem (str : Str) : (s.appendConst str).active.mem = s.active.mem := rfl
@[simp] theorem appendConst_regs (str : Str) : (s.appendConst str).active.regs = s.active.regs := rfl
@[simp] theorem appendConst_consts (str : Str) : (s.appendConst str).active.consts = s.active.consts ++ [str] := rfl
@[simp] theorem appendConst_funs (str : Str) : (s.appendConst str).active.funs = s.active.funs := rfl
@[simp] theorem appendConst_pc (str : Str) : (s.appendConst str).active.pc = s.active.pc := rfl

@[simp] theorem bindFun_params (name : Str) (b : List Word) : (s.bindFun name b).params = s.params := rfl
@[simp] theorem bindFun_parents (name : Str) (b : List Word) : (s.bindFun name b).parents = s.parents := rfl
@[simp] theorem bindFun_status (name : Str) (b : List Word) : (s.bindFun name b).status = s.status := rfl
@[simp] theorem bindFun_out (name : Str) (b : List Word) : (s.bindFun name b).out = s.out := rfl
@[simp] theorem bindFun_mem (name : Str) (b : List Word) : (s.bindFun name b).active.mem = s.active.mem := rfl
@[simp] theorem bindFun_regs (name : Str) (b : List Word) : (s.bindFun name b).active.regs = s.active.regs := rfl
@[simp] theorem bindFun_consts (name : Str) (b : List Word) : (s.bindFun name b).active.consts = s.active.consts := rfl
@[simp] theorem bindFun_funs (name : Str) (b : List Word) : (s.bindFun name b).active.funs = s.active.funs.bind name b := rfl
@[simp] theorem bindFun_pc (name : Str) (b : List Word) : (s.bindFun name b).active.pc = s.active.pc := rfl

@[simp] theorem pushFrame_params (f : Frame) : (s.pushFrame f).params = s.params := rfl
@[simp] theorem pushFrame_parents (f : Frame) : (s.pushFrame f).parents = s.active :: s.parents := rfl
@[simp] theorem pushFrame_status (f : Frame) : (s.pushFrame f).status = s.status := rfl
@[simp] theorem pushFrame_out (f : Frame) : (s.pushFrame f).out = s.out := rfl
@[simp] theorem pushFrame_active (f : Frame) : (s.pushFrame f).active = f := rfl

@[simp] theorem fault_params (k : FaultKind) (v : Word) : (s.fault k v).params = s.params := rfl
@[simp] theorem fault_parents (k : FaultKind) (v : Word) : (s.fault k v).parents = s.parents := rfl
@[simp] theorem fault_status (k : FaultKind) (v : Word) : (s.fault k v).status = .faulted { kind := k, depth := s.depth, pc := s.active.pc, value := v } := rfl
@[simp] theorem fault_out (k : FaultKind) (v : Word) : (s.fault k v).out = s.out := rfl
@[simp] theorem fault_active (k : FaultKind) (v : Word) : (s.fault k v).active = s.active := rfl

end Sys2Proof.Machine
end

