-- ==== Sys2Proof/Laws/Exec.lean ====
section
/-! SUPPORT. Everything an instruction and a step can do, said once: later proofs split on these cases and never unfold the
meanings again. -/

namespace Sys2Proof.Machine

/-- The next states of an instruction. -/
inductive Effect (s : State) : Instr → State → Prop where
  | fault (i : Instr) (kind : FaultKind) (value : Word) : Effect s i (s.fault kind value)
  | nop (alt : Bool) : Effect s (.nop alt) (s.adv 0)
  | unrecognized (w : Word) : Effect s (.unrecognized w) ((s.emit (.unrecognized s.depth s.active.pc w)).adv 0)
  | push (v i : Word) (h0 : 0 ≤ i) (h1 : i < (regCap : Int)) : Effect s (.push v i) ((s.writeReg i.toNat v).adv 2)
  | jump (t : Word) (h0 : 0 ≤ t) : Effect s (.jump t) (s.setPc (min t.toNat memCap))
  | taken (t i v : Word) (h0 : 0 ≤ t) : Effect s (.jumpIfEqual t i v) (s.setPc (min t.toNat memCap))
  | notTaken (t i v : Word) : Effect s (.jumpIfEqual t i v) (s.adv 3)
  | arithmetic (i : Instr) (a b r : Word) (op : Params → Word → Word → AluResult)
      (hi : (i = .add a b ∧ op = aluAdd) ∨ (i = .sub a b ∧ op = aluSub) ∨ (i = .mul a b ∧ op = aluMul) ∨
        (i = .div a b ∧ op = aluDiv))
      (ha0 : 0 ≤ a) (ha1 : a < (regCap : Int)) (hb0 : 0 ≤ b) (hb1 : b < (regCap : Int))
      (hr : op s.params (s.readReg a.toNat) (s.readReg b.toNat) = .value r) :
      Effect s i (((s.writeReg a.toNat r).writeReg b.toNat 0).adv 2)
  | functionDeclare (k : Word) (body : List Word) (closed : Bool) (name : Str)
      (hn : s.active.consts[k.toNat]? = some name) :
      Effect s (.functionDeclare k body closed) ((s.bindFun name body).endBlock .function (body.length + 3) closed)
  | print (m i : Word) (e : Event) : Effect s (.print m i) ((s.emit e).adv 2)
  | functionCall (k : Word) (name : Str) (body : List Word) (hn : s.active.consts[k.toNat]? = some name)
      (hb : s.active.funs.body name = some body) (hd : s.depth ≠ s.params.maxCallDepth) :
      Effect s (.functionCall k) ((s.adv 1).pushFrame (s.active.child body))
  | constantLiteral (codes : List Word) (closed : Bool) :
      Effect s (.constantLiteral codes closed) ((s.appendConst codes).endBlock .constant (codes.length + 2) closed)

theorem arithmetic_effect (s : State) (i : Instr) (a b : Word) (op : Params → Word → Word → AluResult)
    (hi : (i = .add a b ∧ op = aluAdd) ∨ (i = .sub a b ∧ op = aluSub) ∨ (i = .mul a b ∧ op = aluMul) ∨
      (i = .div a b ∧ op = aluDiv)) :
    ∃ t, arithmetic op a b s = .next t ∧ Effect s i t := by
  have out : ∀ c : Word, ¬(0 ≤ c ∧ c < (regCap : Int)) → c < 0 ∨ (regCap : Int) ≤ c := by
    intro c hc
    unfold Word at *
    omega
  by_cases ha : 0 ≤ a ∧ a < (regCap : Int)
  case neg =>
    exact ⟨_, by rw [arithmetic, withReg_invalid (out a ha)], .fault ..⟩
  by_cases hb : 0 ≤ b ∧ b < (regCap : Int)
  case neg =>
    exact ⟨_, by rw [arithmetic, withReg_valid ha.1 ha.2, withReg_invalid (out b hb)], .fault ..⟩
  rw [arithmetic_valid ha.1 ha.2 hb.1 hb.2]
  cases hr : op s.params (s.readReg a.toNat) (s.readReg b.toNat) with
  | value r => exact ⟨_, rfl, .arithmetic i a b r op hi ha.1 ha.2 hb.1 hb.2 hr⟩
  | overflow => exact ⟨_, rfl, .fault ..⟩
  | divideByZero => exact ⟨_, rfl, .fault ..⟩

theorem printConst_effect (s : State) (m i j : Word) : ∃ t, printConst j s = .next t ∧ Effect s (.print m i) t := by
  rcases withConst_cases (rfl : printConst j s = _) with h | ⟨str, -, -, h⟩
  · exact ⟨_, h, .fault ..⟩
  · exact ⟨_, h.symm, .print ..⟩

/-- Every instruction answers a next state, and only these (spec 40_fetch_dispatch.md R107). -/
theorem exec_effect (i : Instr) (s : State) : ∃ t, exec i s = .next t ∧ Effect s i t := by
  cases i with
  | nop alt => exact ⟨_, rfl, .nop alt⟩
  | unrecognized w => exact ⟨_, rfl, .unrecognized w⟩
  | push v i =>
    rcases withReg_cases (rfl : execPush v i s = _) with h | ⟨h0, h1, h⟩
    · exact ⟨_, h, .fault ..⟩
    · exact ⟨_, h.symm, .push v i h0 h1⟩
  | jump t =>
    rcases jumpTo_eq t s with ⟨-, h⟩ | ⟨h0, h⟩
    · exact ⟨_, h, .fault ..⟩
    · exact ⟨_, h, .jump t h0⟩
  | jumpIfEqual t i v =>
    rcases withReg_cases (rfl : execJumpIfEqual t i v s = _) with h | ⟨-, -, h⟩
    · exact ⟨_, h, .fault ..⟩
    · split at h
      · rcases jumpTo_eq t s with ⟨-, h'⟩ | ⟨h0, h'⟩
        · exact ⟨_, h.symm.trans h', .fault ..⟩
        · exact ⟨_, h.symm.trans h', .taken t i v h0⟩
      · exact ⟨_, h.symm, .notTaken t i v⟩
  | add a b => exact arithmetic_effect s _ a b aluAdd (.inl ⟨rfl, rfl⟩)
  | sub a b => exact arithmetic_effect s _ a b aluSub (.inr (.inl ⟨rfl, rfl⟩))
  | mul a b => exact arithmetic_effect s _ a b aluMul (.inr (.inr (.inl ⟨rfl, rfl⟩)))
  | div a b => exact arithmetic_effect s _ a b aluDiv (.inr (.inr (.inr ⟨rfl, rfl⟩)))
  | functionDeclare k body closed =>
    rcases withConst_cases (rfl : execFunctionDeclare k body closed s = _) with h | ⟨name, -, hn, h⟩
    · exact ⟨_, h, .fault ..⟩
    · exact ⟨_, h.symm, .functionDeclare k body closed name hn⟩
  | print m i =>
    simp only [exec, execPrint]
    split
    · rcases withReg_cases (rfl : withReg i s _ = _) with h | ⟨-, -, h⟩
      · exact ⟨_, h, .fault ..⟩
      · exact ⟨_, h.symm, .print ..⟩
    · split
      · split
        · rcases withReg_cases (rfl : withReg i s (fun r => printConst (s.readReg r) s) = _) with h | ⟨-, -, h⟩
          · exact ⟨_, h, .fault ..⟩
          · obtain ⟨t, ht, he⟩ := printConst_effect s m i (s.readReg i.toNat)
            exact ⟨t, h.symm.trans ht, he⟩
        · exact printConst_effect s m i i
      · exact ⟨_, rfl, .fault ..⟩
  | functionCall k =>
    rcases withConst_cases (rfl : execFunctionCall k s = _) with h | ⟨name, -, hn, h⟩
    · exact ⟨_, h, .fault ..⟩
    · refine (?_ : ∃ t, execFunctionCall k s = .next t ∧ Effect s (.functionCall k) t)
      rw [← h]
      cases hb : s.active.funs.body name with
      | none => exact ⟨_, rfl, .fault ..⟩
      | some body =>
        by_cases hd : s.depth = s.params.maxCallDepth
        · exact ⟨_, if_pos hd, .fault ..⟩
        · exact ⟨_, if_neg hd, .functionCall k name body hn hb hd⟩
  | constantLiteral codes closed => exact ⟨_, rfl, .constantLiteral codes closed⟩

/-- The inversion of `exec`. -/
theorem effect_of_exec {i : Instr} {s t : State} (h : exec i s = .next t) : Effect s i t := by
  obtain ⟨u, hu, he⟩ := exec_effect i s
  rw [hu] at h
  cases h
  exact he

/-- A step of a Running block before the end of memory is the fetched instruction's meaning. -/
theorem step_eq_exec {s : State} (h : s.status = .running) (hp : s.active.pc < memCap) :
    step s = exec s.active.fetch s := by
  simp [step, h, Nat.not_le.mpr hp]

/-- The inversion of `step`: the block was Running, and either its active frame had ended or an instruction ran. -/
theorem step_cases {s t : State} (h : step s = .next t) :
    s.status = .running ∧
      ((memCap ≤ s.active.pc ∧ t = endFrame s) ∨
        (s.active.pc < memCap ∧ exec s.active.fetch s = .next t ∧ Effect s s.active.fetch t)) := by
  cases hs : s.status with
  | running =>
    by_cases hp : memCap ≤ s.active.pc
    · simp only [step, hs, hp, if_true] at h
      cases h
      exact ⟨rfl, .inl ⟨hp, rfl⟩⟩
    · have hp' := Nat.lt_of_not_le hp
      rw [step_eq_exec hs hp'] at h
      exact ⟨rfl, .inr ⟨hp', h, effect_of_exec h⟩⟩
  | idle => simp [step, hs] at h
  | halted => simp [step, hs] at h
  | faulted r => simp [step, hs] at h

end Sys2Proof.Machine
end

