-- ==== Sys2Proof/Laws/HostPort.lean ====
section
/-! SUPPORT. What each host operation can answer, said once: refused while the block is Running (70_reset_and_hazards.md
R277), otherwise what its own rule gives. -/

namespace Sys2Proof.Machine

@[simp] theorem betweenRuns_running {α : Type} {s : State} (h : s.status = .running)
    (answer : Host.Outcome α Fault Refusal) : betweenRuns s answer = .refused .hostActsWhileRunning := by
  simp [betweenRuns, h]

@[simp] theorem betweenRuns_of_ne {α : Type} {s : State} (h : s.status ≠ .running)
    (answer : Host.Outcome α Fault Refusal) : betweenRuns s answer = answer := by
  simp [betweenRuns, h]

/-- An operation that answers was called between runs, and its answer is its own. -/
theorem betweenRuns_next {α : Type} {s : State} {answer : Host.Outcome α Fault Refusal} {x : α} :
    betweenRuns s answer = .next x ↔ s.status ≠ .running ∧ answer = .next x := by
  unfold betweenRuns
  split <;> simp_all

theorem hostNew_next {s t : State} : hostNew s = .next t ↔ s.status ≠ .running ∧ t = State.new s.params := by
  rw [hostNew, betweenRuns_next, Host.Outcome.next.injEq, eq_comm (a := t)]

theorem hostLoad_next {words : List Word} {s t : State} :
    hostLoad words s = .next t ↔
      s.status ≠ .running ∧ t = s.changeTopLevel (fun f => { f with mem := f.mem.load 0 words }) := by
  rw [hostLoad, betweenRuns_next, Host.Outcome.next.injEq, eq_comm (a := t)]

theorem hostStart_next {s t : State} :
    hostStart s = .next t ↔ (s.status = .idle ∨ s.status = .halted) ∧ t = { s with status := .running } := by
  rw [hostStart, betweenRuns_next]
  cases h : s.status <;> simp [eq_comm]

theorem hostDump_next {ml rl : Int} {s : State} {d : List Word × List Word} :
    hostDump ml rl s = .next d ↔
      s.status ≠ .running ∧ d.1 = Memory.window s.topLevel.regs 0 (dumpLimit rl regCap) ∧
        d.2 = Memory.window s.topLevel.mem 0 (dumpLimit ml memCap) := by
  rcases d with ⟨regs, mem⟩
  rw [hostDump, betweenRuns_next, Host.Outcome.next.injEq, Prod.mk.injEq, eq_comm (a := regs), eq_comm (a := mem)]

end Sys2Proof.Machine
end

