-- ==== Sys2Proof/Laws/PerInstr.lean ====
section
/-! SUPPORT. Statements about every instruction as syntax, one lemma per constructor. Family `Encoding`: the encoder gives an
instruction at least its opcode word, and as many words as the format table says (spec 30_encoding.md R71, R72). -/

namespace Sys2Proof

/-- The number of words of an instruction (R71); a block without its delimiter has none for it (R182). -/
def Instr.words : Instr → Nat
  | .nop _ => 1
  | .push _ _ => 3
  | .jump _ => 2
  | .jumpIfEqual _ _ _ => 4
  | .add _ _ => 3
  | .sub _ _ => 3
  | .mul _ _ => 3
  | .div _ _ => 3
  | .functionDeclare _ body closed => body.length + (if closed then 3 else 2)
  | .print _ _ => 3
  | .functionCall _ => 2
  | .constantLiteral codes closed => codes.length + (if closed then 2 else 1)
  | .unrecognized _ => 1

namespace Laws.Encoding

/-- The encoding has the format's number of words, the opcode among them. -/
def Statement (i : Instr) : Prop := (encode i).length = i.words ∧ 1 ≤ i.words

theorem closing_length (d : Word) (closed : Bool) : (closing d closed).length = if closed then 1 else 0 := by
  cases closed <;> rfl

theorem nop (alt : Bool) : Statement (.nop alt) := ⟨rfl, le_refl _⟩
theorem push (v i : Word) : Statement (.push v i) := ⟨rfl, by simp [Instr.words]⟩
theorem jump (t : Word) : Statement (.jump t) := ⟨rfl, by simp [Instr.words]⟩
theorem jumpIfEqual (t i v : Word) : Statement (.jumpIfEqual t i v) := ⟨rfl, by simp [Instr.words]⟩
theorem add (a b : Word) : Statement (.add a b) := ⟨rfl, by simp [Instr.words]⟩
theorem sub (a b : Word) : Statement (.sub a b) := ⟨rfl, by simp [Instr.words]⟩
theorem mul (a b : Word) : Statement (.mul a b) := ⟨rfl, by simp [Instr.words]⟩
theorem div (a b : Word) : Statement (.div a b) := ⟨rfl, by simp [Instr.words]⟩
theorem functionDeclare (k : Word) (body : List Word) (closed : Bool) : Statement (.functionDeclare k body closed) := by
  cases closed <;> simp [Statement, encode, Instr.words, closing_length]
theorem print (m i : Word) : Statement (.print m i) := ⟨rfl, by simp [Instr.words]⟩
theorem functionCall (k : Word) : Statement (.functionCall k) := ⟨rfl, by simp [Instr.words]⟩
theorem constantLiteral (codes : List Word) (closed : Bool) : Statement (.constantLiteral codes closed) := by
  cases closed <;> simp [Statement, encode, Instr.words, closing_length]
theorem unrecognized (w : Word) : Statement (.unrecognized w) := ⟨rfl, le_refl _⟩

end Laws.Encoding

end Sys2Proof
end

