-- ==== Sys2Proof/Laws/Table.lean ====
section
/-! SUPPORT. Laws of the function table: lookup after bind, and that bind keeps the canonical form. -/

namespace Sys2Proof.Machine

theorem erase_table_cons_same {e : Str × List Word} (rest : FunTable) {name : Str} (h : e.1 = name) :
    FunTable.erase (e :: rest) name = FunTable.erase rest name := by
  simp [FunTable.erase, h]

theorem erase_table_cons_ne {e : Str × List Word} (rest : FunTable) {name : Str} (h : e.1 ≠ name) :
    FunTable.erase (e :: rest) name = e :: FunTable.erase rest name := by
  simp [FunTable.erase, h]

theorem body_erase_ne (t : FunTable) {name other : Str} (h : other ≠ name) : (t.erase name).body other = t.body other := by
  induction t with
  | nil => rfl
  | cons e rest ih =>
    by_cases hn : e.1 = name
    · have ho : e.1 ≠ other := fun ho => h (ho.symm.trans hn)
      rw [erase_table_cons_same rest hn, ih]
      simp [FunTable.body, ho]
    · rw [erase_table_cons_ne rest hn]
      simp [FunTable.body, ih]

theorem body_insert_ne (t : FunTable) {name other : Str} (b : List Word) (h : other ≠ name) :
    (t.insert name b).body other = t.body other := by
  induction t with
  | nil => simp [FunTable.insert, FunTable.body, Ne.symm h]
  | cons e rest ih =>
    simp only [FunTable.insert]
    split
    · simp [FunTable.body, Ne.symm h]
    · simp [FunTable.body, ih]

theorem body_insert_erase (t : FunTable) (name : Str) (b : List Word) : ((t.erase name).insert name b).body name = some b := by
  induction t with
  | nil => simp [FunTable.erase, FunTable.insert, FunTable.body]
  | cons e rest ih =>
    by_cases hn : e.1 = name
    · rw [erase_table_cons_same rest hn, ih]
    · rw [erase_table_cons_ne rest hn]
      simp only [FunTable.insert]
      split
      · simp [FunTable.body]
      · simpa [FunTable.body, hn] using ih

/-- The name just bound has the body just bound. -/
@[simp] theorem body_bind_same (t : FunTable) (name : Str) (b : List Word) : (t.bind name b).body name = some b :=
  body_insert_erase t name b

/-- Binding a name leaves every other name alone. -/
theorem body_bind_ne (t : FunTable) {name other : Str} (b : List Word) (h : other ≠ name) :
    (t.bind name b).body other = t.body other := by
  rw [FunTable.bind, body_insert_ne _ b h, body_erase_ne t h]

theorem strLt_trans {x y z : Str} (h1 : strLt x y = true) (h2 : strLt y z = true) : strLt x z = true := by
  induction x generalizing y z with
  | nil =>
    cases z with
    | nil => cases y <;> simp [strLt] at h1 h2
    | cons => rfl
  | cons a as ih =>
    cases y with
    | nil => simp [strLt] at h1
    | cons b bs =>
      cases z with
      | nil => simp [strLt] at h2
      | cons c cs =>
        simp only [strLt, Bool.or_eq_true, Bool.and_eq_true, decide_eq_true_eq] at *
        rcases h1 with h1 | ⟨rfl, h1⟩
        · rcases h2 with h2 | ⟨rfl, _⟩
          · exact .inl (h1.trans h2)
          · exact .inl h1
        · rcases h2 with h2 | ⟨rfl, h2⟩
          · exact .inl h2
          · exact .inr ⟨rfl, ih h1 h2⟩

theorem strLt_total {x y : Str} (hne : x ≠ y) (h : strLt x y = false) : strLt y x = true := by
  induction x generalizing y with
  | nil => cases y with
    | nil => exact absurd rfl hne
    | cons => simp [strLt] at h
  | cons a as ih =>
    cases y with
    | nil => rfl
    | cons b bs =>
      simp only [strLt, Bool.or_eq_false_iff, Bool.and_eq_false_iff, decide_eq_false_iff_not, Bool.or_eq_true,
        Bool.and_eq_true, decide_eq_true_eq] at *
      rcases lt_trichotomy b a with hlt | rfl | hgt
      · exact .inl hlt
      · refine .inr ⟨rfl, ih (fun e => hne (by rw [e])) ?_⟩
        rcases h.2 with h | h
        · exact absurd rfl h
        · exact h
      · exact absurd hgt h.1

theorem erase_subset (t : FunTable) (name : Str) : ∀ e ∈ t.erase name, e ∈ t ∧ e.1 ≠ name := by
  intro e he
  simpa [FunTable.erase] using List.mem_filter.mp he

theorem erase_table_wf (t : FunTable) (name : Str) (h : FunTable.wf t = true) : FunTable.wf (t.erase name) = true := by
  induction t with
  | nil => rfl
  | cons e rest ih =>
    simp only [FunTable.wf, Bool.and_eq_true, List.all_eq_true] at h
    by_cases hn : e.1 = name
    · rw [erase_table_cons_same rest hn]
      exact ih h.2
    · rw [erase_table_cons_ne rest hn]
      simp only [FunTable.wf, Bool.and_eq_true, List.all_eq_true]
      exact ⟨fun e' he' => h.1 e' (erase_subset rest name e' he').1, ih h.2⟩

theorem mem_insert_table (t : FunTable) (name : Str) (b : List Word) :
    ∀ e ∈ t.insert name b, e = (name, b) ∨ e ∈ t := by
  induction t with
  | nil => simp [FunTable.insert]
  | cons e rest ih =>
    intro e' he'
    simp only [FunTable.insert] at he'
    split at he'
    · simpa using he'
    · rcases List.mem_cons.mp he' with rfl | he'
      · exact .inr (List.mem_cons_self ..)
      · exact (ih e' he').imp id (List.mem_cons_of_mem _)

theorem insert_table_wf (t : FunTable) (name : Str) (b : List Word) (hne : ∀ e ∈ t, e.1 ≠ name)
    (h : FunTable.wf t = true) : FunTable.wf (t.insert name b) = true := by
  induction t with
  | nil => rfl
  | cons e rest ih =>
    simp only [FunTable.wf, Bool.and_eq_true, List.all_eq_true] at h
    simp only [FunTable.insert]
    split
    · rename_i hl
      simp only [FunTable.wf, Bool.and_eq_true, List.all_eq_true]
      refine ⟨fun e' he' => ?_, h⟩
      rcases List.mem_cons.mp he' with rfl | he'
      · exact hl
      · exact strLt_trans hl (h.1 e' he')
    · rename_i hl
      simp only [FunTable.wf, Bool.and_eq_true, List.all_eq_true]
      refine ⟨fun e' he' => ?_, ih (fun e' he' => hne e' (List.mem_cons_of_mem _ he')) h.2⟩
      rcases mem_insert_table rest name b e' he' with rfl | he'
      · exact strLt_total (hne e (List.mem_cons_self ..)).symm (by simpa using hl)
      · exact h.1 e' he'

/-- Binding keeps the canonical form of a table. -/
theorem bind_wf (t : FunTable) (name : Str) (b : List Word) (h : FunTable.wf t = true) :
    FunTable.wf (t.bind name b) = true :=
  insert_table_wf _ name b (fun e he => (erase_subset t name e he).2) (erase_table_wf t name h)

/-- Every entry after a bind is the new one or an old one. -/
theorem mem_bind (t : FunTable) (name : Str) (b : List Word) : ∀ e ∈ t.bind name b, e = (name, b) ∨ e ∈ t := by
  intro e he
  exact (mem_insert_table _ name b e he).imp id (fun h => (erase_subset t name e h).1)

end Sys2Proof.Machine
end

