-- ==== Sys2Proof/Tests/Slice0.lean ====
section
/-! SUPPORT. Tests on fixed values: words written out from 30_encoding.md R71 and R75, ill-formed terms, at most two steps
per instruction taken from 95_test_vectors.md (the vector is named), and for each statement with hypotheses a witness that
meets them. -/

namespace Sys2Proof.Tests

open Sys2Proof Sys2Proof.Machine

/-! ## Small states -/

/-- The next state an outcome holds, if it holds one. -/
def nextOf : Host.Outcome State Fault Refusal → Option State
  | .next t => some t
  | .fault _ => none
  | .refused _ => none

theorem eq_next {o : Host.Outcome State Fault Refusal} {t : State} (h : nextOf o = some t) : o = .next t := by
  cases o <;> simp_all [nextOf]

/-- The conventions of 95_test_vectors.md. -/
def std : Params := { wordBits := 64, maxCallDepth := 8, overflowPolicy := .fault, printMode1 := .indirect }

/-- The same with other words, depth, policy and print mode. -/
def par (W d : Nat) (o : OverflowPolicy) (m : PrintMode1) : Params :=
  { wordBits := W, maxCallDepth := d, overflowPolicy := o, printMode1 := m }

/-- A Running block of depth 1 with `ws` in memory at `pc`. -/
def blk (pc : Nat) (ws : List Word) (regs : RegFile := []) (consts : List Str := []) (funs : FunTable := [])
    (p : Params := std) : State :=
  { params := p, active := { mem := Memory.load [] pc ws, regs := regs, consts := consts, funs := funs, pc := pc },
    parents := [], status := .running, out := [] }

/-- The state after a step, or the same state where there is none. -/
def after (s : State) : State := (nextOf (step s)).getD s

theorem step_after {s : State} (h : (nextOf (step s)).isSome = true) : step s = .next (after s) := by
  unfold after
  cases hs : step s <;> simp_all [nextOf]

/-- What a step shows: program counter, registers, pool, output. -/
def seen (s : State) : Nat × RegFile × List Str × List Event :=
  ((after s).active.pc, (after s).active.regs, (after s).active.consts, (after s).out)

/-- The step raises exactly this fault and changes nothing else. -/
def faultsWith (kind : FaultKind) (v : Word) (s : State) : Bool := decide (nextOf (step s) = some (s.fault kind v))

/-! ## Decoding: words written out from the spec's encodings -/

theorem test_decode_nop : decode [0] = .ok (.nop false, []) := rfl
theorem test_decode_nop1 : decode [1, 5] = .ok (.nop true, [5]) := rfl
theorem test_decode_push : decode [2, 7, 3] = .ok (.push 7 3, []) := rfl
theorem test_decode_push_sentinels : decode [2] = .ok (.push 0 0, []) := rfl
theorem test_decode_jump : decode [3, 15] = .ok (.jump 15, []) := rfl
theorem test_decode_jump_if_equal : decode [4, 15, 8, -7, 1] = .ok (.jumpIfEqual 15 8 (-7), [1]) := rfl
theorem test_decode_add : decode [5, 1, 2] = .ok (.add 1 2, []) := rfl
theorem test_decode_sub : decode [6, 1, 2] = .ok (.sub 1 2, []) := rfl
theorem test_decode_mul : decode [7, 1, 2] = .ok (.mul 1 2, []) := rfl
theorem test_decode_div : decode [8, 1, 2] = .ok (.div 1 2, []) := rfl
theorem test_decode_declare : decode [9, 9, 2, 5, 9, 17] = .ok (.functionDeclare 9 [2, 5] true, [17]) := rfl
theorem test_decode_declare_open : decode [9, 0, 2] = .ok (.functionDeclare 0 [2] false, []) := rfl
theorem test_decode_print : decode [16, 1, 5] = .ok (.print 1 5, []) := rfl
theorem test_decode_call : decode [17, 3] = .ok (.functionCall 3, []) := rfl
theorem test_decode_constant : decode [21, 9, 104, 21, 21] = .ok (.constantLiteral [9, 104] true, [21]) := rfl
theorem test_decode_constant_open : decode [21] = .ok (.constantLiteral [] false, []) := rfl
theorem test_decode_unrecognized : decode [-2, 2] = .ok (.unrecognized (-2), [2]) := rfl
theorem test_decode_no_word : decode [] = .error .noWord := rfl
theorem test_decode_table_words :
    decodeTableWord 192 (5 + 3 * 2 ^ 64 + (2 ^ 64 - 1) * 2 ^ 128) = some (.add 3 (-1)) := by decide
theorem test_decode_table_short : decodeTableWord 64 2 = some (.push 0 0) := by decide
theorem test_with_fetch_word :
    ((after (State.reset.withFetchWord 192 (2 + 7 * 2 ^ 64 + 4 * 2 ^ 128))).active.regs) = [(4, 7)] := by decide

/-! ## WellFormed refuses an ill-formed term at each check -/

theorem test_wf_push_value : (Instr.push 32768 0).wf 16 = false := by decide
theorem test_wf_push_reg : (Instr.push 0 (-32769)).wf 16 = false := by decide
theorem test_wf_jump : (Instr.jump 32768).wf 16 = false := by decide
theorem test_wf_jump_if_equal : ∀ i ∈ [Instr.jumpIfEqual 32768 0 0, .jumpIfEqual 0 32768 0, .jumpIfEqual 0 0 32768],
    i.wf 16 = false := by decide
theorem test_wf_arithmetic : ∀ f ∈ [Instr.add, .sub, .mul, .div], (f 32768 0).wf 16 = false ∧ (f 0 32768).wf 16 = false := by
  decide
theorem test_wf_declare_index : (Instr.functionDeclare 32768 [] true).wf 16 = false := by decide
theorem test_wf_declare_range : (Instr.functionDeclare 0 [32768] true).wf 16 = false := by decide
theorem test_wf_declare_delimiter : (Instr.functionDeclare 0 [2, 9] true).wf 16 = false := by decide
theorem test_wf_declare_long : (Instr.functionDeclare 0 (List.replicate 4094 0) true).wf 16 = false := by decide +kernel
theorem test_wf_declare_open_long : (Instr.functionDeclare 0 (List.replicate 4095 0) false).wf 16 = false := by
  decide +kernel
theorem test_wf_print : (Instr.print 32768 0).wf 16 = false ∧ (Instr.print 0 32768).wf 16 = false := by decide
theorem test_wf_call : (Instr.functionCall 32768).wf 16 = false := by decide
theorem test_wf_constant_range : (Instr.constantLiteral [32768] true).wf 16 = false := by decide
theorem test_wf_constant_delimiter : (Instr.constantLiteral [104, 21] false).wf 16 = false := by decide
theorem test_wf_constant_long : (Instr.constantLiteral (List.replicate 4095 0) true).wf 16 = false := by decide +kernel
theorem test_wf_constant_open_long : (Instr.constantLiteral (List.replicate 4096 0) false).wf 16 = false := by
  decide +kernel
theorem test_wf_unrecognized_opcode : (Instr.unrecognized 21).wf 16 = false := by decide
theorem test_wf_unrecognized_range : (Instr.unrecognized (-32769)).wf 16 = false := by decide
theorem test_wf_accepts : ∀ i ∈ [Instr.nop true, .push (-32768) 32767, .functionDeclare 9 [21] true,
    .constantLiteral [9] false, .unrecognized 10], i.wf 16 = true := by decide

/-! ## One step of each instruction -/

theorem test_nop : seen (blk 7 [1]) = (8, [], [], []) := by decide  -- V40.2
theorem test_nop_last_word : seen (blk 4095 [0]) = (4096, [], [], []) := by decide  -- V40.6
theorem test_push_negative : seen (blk 0 [2, -5, 999]) = (3, [(999, -5)], [], []) := by decide  -- V41.2
theorem test_push_range : faultsWith .registerOutOfRange 1000 (blk 0 [2, 5, 1000]) = true := by decide  -- V41.4
theorem test_jump_clamped : seen (blk 0 [3, 5000]) = (4096, [], [], []) := by decide  -- V42.4
theorem test_jump_negative : faultsWith .memoryOverrun (-1) (blk 0 [3, -1]) = true := by decide  -- V42.5
theorem test_jeq_not_taken : seen (blk 0 [4, -5, 0, 1]) = (4, [], [], []) := by decide  -- V42.12
theorem test_jeq_taken_negative : faultsWith .memoryOverrun (-5) (blk 3 [4, -5, 0, 1] [(0, 1)]) = true := by   -- V42.13
  decide
theorem test_add_overflow :   -- V43.31
    faultsWith .arithmeticOverflow 0 (blk 0 [5, 0, 0] [(0, 2147483647)] [] [] (par 32 8 .fault .indirect)) = true := by
  decide
theorem test_add : seen (blk 6 [5, 0, 1] [(0, 7), (1, 3)]) = (9, [(0, 10)], [], []) := by decide  -- L1.1
theorem test_sub_wraps :   -- V43.34
    seen (blk 0 [6, 0, 1] [(0, -32768), (1, 1)] [] [] (par 16 8 .wrap .indirect)) = (3, [(0, 32767)], [], []) := by decide
theorem test_sub_negative : seen (blk 0 [6, 0, 1] [(0, 3), (1, 5)]) = (3, [(0, -2)], [], []) := by decide   -- V43.4
theorem test_mul_wraps :   -- V43.38
    seen (blk 0 [7, 0, 1] [(0, 32767), (1, 32767)] [] [] (par 16 8 .wrap .indirect)) = (3, [(0, 1)], [], []) := by decide
theorem test_mul_same_register : seen (blk 0 [7, 0, 0] [(0, 6)]) = (3, [], [], []) := by decide  -- V43.28
theorem test_div_toward_zero : seen (blk 0 [8, 0, 1] [(0, -7), (1, 2)]) = (3, [(0, -3)], [], []) := by decide   -- V43.12
theorem test_div_min :   -- V43.40
    faultsWith .arithmeticOverflow 0 (blk 0 [8, 0, 1] [(0, -32768), (1, -1)] [] [] (par 16 8 .wrap .indirect)) = true := by
  decide
theorem test_declare_rebinds :   -- V44.6
    (after (blk 0 [9, 0, 16, 0, 0, 9] [] [[102]] [([102], [1])])).active.funs = [([102], [16, 0, 0])] := by decide
theorem test_declare_unterminated :   -- V44.12
    seen (blk 4095 [9] [] [[102]]) = (4096, [], [[102]], [.unterminated 1 4095 .function]) := by decide
theorem test_print_indirect :   -- V45.3
    seen (blk 0 [16, 1, 0] [(0, 1)] [[104, 105], [111, 107]]) =
      (3, [(0, 1)], [[104, 105], [111, 107]], [.str [111, 107]]) := by decide
theorem test_print_direct :   -- V45.3
    seen (blk 0 [16, 1, 0] [(0, 1)] [[104, 105], [111, 107]] [] (par 64 8 .fault .direct)) =
      (3, [(0, 1)], [[104, 105], [111, 107]], [.str [104, 105]]) := by decide
theorem test_call :   -- V46.1
    (after (blk 16 [17, 0] [(0, 5)] [[104, 105]] [([104, 105], [2, 0, 0, 16, 1, 0])])).active =
      { mem := [(0, 2), (3, 16), (4, 1)], regs := [(0, 5)], consts := [[104, 105]],
        funs := [([104, 105], [2, 0, 0, 16, 1, 0])], pc := 0 } := by decide
theorem test_call_too_deep :   -- V46.4
    faultsWith .callDepthExceeded 1 (blk 0 [17, 0] [] [[102]] [([102], [])] (par 64 1 .fault .indirect)) = true := by decide
theorem test_constant_any_word :   -- V44.3
    seen (blk 0 [21, 0, -3, 9, 16, 21]) = (6, [], [[0, -3, 9, 16]], []) := by decide
theorem test_constant_unterminated :   -- V44.7
    (after (blk 0 [21, 104, 105])).active.consts.map (fun c => (c.length, c.take 3)) = [(4095, [104, 105, 0])] ∧
      (after (blk 0 [21, 104, 105])).out = [.unterminated 1 0 .constant] := by decide +kernel
theorem test_unrecognized : seen (blk 4 [-1]) = (5, [], [], [.unrecognized 1 4 (-1)]) := by decide  -- V40.4
theorem test_halts : (after (blk 4096 [])).status = .halted := by decide  -- V40.7
theorem test_image_bytes : imageWords [0x02, 0x07, 0x00, 0xFF, 0x95, 0x10] = [2, 7, 0, -1, -107, 16] := by decide   -- V70.8
theorem test_reset_memory_wf : Memory.wf State.reset.active.mem = true := by decide
theorem test_fault_codes :   -- 60_exceptions.md R240
    [FaultKind.registerOutOfRange, .unboundFunction, .divisionByZero, .memoryOverrun, .arithmeticOverflow,
      .constantOutOfRange, .invalidPrintMode, .callDepthExceeded].map FaultKind.code = [1, 2, 3, 4, 5, 6, 7, 8] := by decide

/-! ## Witnesses: states and operands that meet the hypotheses of a statement -/

/-- A Running block of depth 3 whose active frame is `f`. -/
def deep (f : Frame) : State :=
  { params := std, active := f, parents := [{ Frame.new with pc := 2 }, { Frame.new with regs := [(0, 5)], pc := 2 }],
    status := .running, out := [] }

/-- A program that declares nothing and calls a function that ends at once (body `jump 4096`). -/
def caller : State := blk 4094 [17, 0] [(0, 5)] [[102]] [([102], [3, 4096])]

theorem witness_DecodeOfEncode :
    (Instr.functionDeclare 0 [2] true).wf 16 = true ∧ (Instr.functionDeclare 0 [2] true).selfDelimited = true ∧
      (Instr.constantLiteral [2] false).wf 16 = true := by decide

theorem witness_EncodeOfDecode :
    decode [2] = .ok (.push 0 0, []) ∧ decode [2, 7, 0, 1] = .ok (.push 7 0, [1]) ∧
      (encode (.push 7 0)).length ≤ [2, 7, 0, (1 : Word)].length := ⟨rfl, rfl, by decide⟩

theorem witness_DecodedInstructionIsWellFormed :
    (∀ w ∈ ([2, 32767, -32768] : List Word), inRange 16 w = true) ∧ [2, 32767, (-32768 : Word)].length ≤ memCap ∧
      decode [2, 32767, -32768] = .ok (.push 32767 (-32768), []) := ⟨by decide, by decide, rfl⟩

theorem witness_EveryWordDecodes :
    (∀ w ∈ ([-1, 10, 15, 18, 20, 22] : List Word), w ∉ ([0, 1, 2, 3, 4, 5, 6, 7, 8, 9, 16, 17, 21] : List Word)) ∧
      (21 : Word) ∈ ([0, 1, 2, 3, 4, 5, 6, 7, 8, 9, 16, 17, 21] : List Word) := by decide

theorem witness_ScanStopsAtTheFirstDelimiter :
    (1 ≤ 2 ∧ 2 < memCap ∧ Cells.get (Memory.load [] 0 [21, 104, 21]) 2 = 21 ∧
      (∀ l, 1 ≤ l → l < 2 → Cells.get (Memory.load [] 0 [21, 104, 21]) l ≠ 21)) ∧
    (∀ l, 4095 ≤ l → l < memCap → Cells.get [] l ≠ 21) :=
  ⟨by decide, fun _ _ _ => by simp⟩

theorem witness_StepRunsTheDecodedInstruction :
    ∃ rest, (blk 4095 [2]).status = .running ∧ (blk 4095 [2]).active.pc < memCap ∧
      decode (blk 4095 [2]).active.toEnd = .ok ((blk 4095 [2]).active.fetch, rest) ∧
      (blk 4095 [2]).active.fetch = .push 0 0 := by
  obtain ⟨rest, h⟩ := decode_toEnd (blk 4095 [2]).active (by decide)
  exact ⟨rest, by decide, by decide, h, by decide⟩

theorem witness_StepDispatchesOnTheFetchedWord :
    ∀ w ∈ ([0, 1, 2, 3, 4, 5, 6, 7, 8, 9, 16, 17, 21, -1, 10, 22] : List Word),
      (blk 4095 [w]).status = .running ∧ (blk 4095 [w]).active.pc < memCap ∧
        (blk 4095 [w]).readMem (blk 4095 [w]).active.pc = w ∧
        ∃ o : Nat → Word, ∀ k, o k =
          if (blk 4095 [w]).active.pc + k < memCap then (blk 4095 [w]).readMem ((blk 4095 [w]).active.pc + k) else 0 := by
  intro w _
  exact ⟨rfl, by simp [blk, memCap], by simp [blk, State.readMem, Memory.load, memCap], _, fun _ => rfl⟩

theorem witness_StepAtTheEndOfAFrame :
    ((blk 4096 []).status = .running ∧ memCap ≤ (blk 4096 []).active.pc ∧ (blk 4096 []).depth = 1) ∧
    ((deep { Frame.new with pc := 4096 }).status = .running ∧ memCap ≤ (deep { Frame.new with pc := 4096 }).active.pc ∧
      ∃ caller below, (deep { Frame.new with pc := 4096 }).parents = caller :: below) :=
  ⟨by decide, by decide, by decide, _, _, rfl⟩

theorem witness_StepIsTotalWhileRunning :
    (blk 0 [8]).status = .running ∧ stepsTo 1 (blk 0 [8]) (after (blk 0 [8])) :=
  ⟨by decide, _, step_after (by decide), rfl⟩

theorem witness_StatusRegister :
    State.reset.status = .idle ∧ (after (blk 4096 [])).status = .halted ∧
      ((blk 4096 []).status = .running ∧ memCap ≤ (blk 4096 []).active.pc ∧ (blk 4096 []).depth = 1) ∧
      (after (blk 0 [8])).status ≠ .running := by decide

theorem witness_PushWritesTheRegister :
    ((0 : Word) ≤ 0 ∧ (0 : Word) < regCap) ∧ ((0 : Word) ≤ 999 ∧ (999 : Word) < regCap) ∧
      ((-1 : Word) < 0 ∧ (regCap : Word) ≤ 1000) ∧
      ((blk 4094 [2, 9]).status = .running ∧ (blk 4094 [2, 9]).readMem (blk 4094 [2, 9]).active.pc = 2 ∧
        (blk 4094 [2, 9]).active.pc = memCap - 2) ∧
      ((blk 4095 [2]).status = .running ∧ (blk 4095 [2]).readMem (blk 4095 [2]).active.pc = 2 ∧
        (blk 4095 [2]).active.pc = memCap - 1) := by decide

theorem witness_JumpGoesToTheTarget : (0 : Word) ≤ 0 ∧ (0 : Word) ≤ 4096 ∧ (-1 : Word) < 0 := by decide

theorem witness_JumpIfEqual :
    ((0 : Word) ≤ 999 ∧ (999 : Word) < regCap ∧ (blk 0 [4] [(999, 7)]).readReg (999 : Word).toNat = 7 ∧ (0 : Word) ≤ 0) ∧
    (blk 0 [4] [(999, 7)]).readReg (999 : Word).toNat ≠ 8 ∧ ((-1 : Word) < 0 ∧ (regCap : Word) ≤ 1000) ∧
    ((0 : Word) ≤ 0 ∧ (0 : Word) < regCap ∧ (blk 0 [4] [(999, 7)]).readReg (0 : Word).toNat = 0 ∧ (-1 : Word) < 0) := by
  decide

/-- The exact results 32767 and -32768 are the ends of the 16-bit range; register 999 is the last, and a may be b. -/
theorem witness_AddSubMulConsume :
    (∀ f ∈ ([fun x y => x + y, fun x y => x - y, fun x y => x * y] : List (Word → Word → Word)),
      ∃ x y : Word, (f x y = wordMax 16 ∨ f x y = wordMin 16) ∧
        (blk 0 [] [(0, x), (999, y)] [] [] (par 16 8 .fault .indirect)).readReg 0 = x ∧
        (blk 0 [] [(0, x), (999, y)] [] [] (par 16 8 .fault .indirect)).readReg 999 = y) ∧
    (wordMin 16 ≤ (blk 0 [] [(0, 181)]).readReg 0 * (blk 0 [] [(0, 181)]).readReg 0 ∧
      (blk 0 [] [(0, 181)]).readReg 0 * (blk 0 [] [(0, 181)]).readReg 0 ≤ wordMax 16) := by
  refine ⟨?_, by decide⟩
  intro f hf
  simp only [List.mem_cons, List.not_mem_nil, or_false] at hf
  obtain rfl | rfl | rfl := hf
  · exact ⟨32766, 1, by decide, by decide, by decide⟩
  · exact ⟨-32767, 1, by decide, by decide, by decide⟩
  · exact ⟨-32768, 1, by decide, by decide, by decide⟩

theorem witness_ArithmeticConsumesRegisterB :
    ∀ w ∈ ([5, 6, 7, 8] : List Word),
      (blk 0 [w, 0, 999] [(0, 7), (999, 3)]).status = .running ∧
        (nextOf (step (blk 0 [w, 0, 999] [(0, 7), (999, 3)]))).isSome = true ∧
        (after (blk 0 [w, 0, 999] [(0, 7), (999, 3)])).status = .running ∧
        ∃ f ∈ [Instr.add, Instr.sub, Instr.mul, Instr.div],
          (blk 0 [w, 0, 999] [(0, 7), (999, 3)]).active.fetch = f 0 999 := by decide

theorem witness_OverflowFollowsThePolicy :
    ∀ o ∈ [OverflowPolicy.fault, .wrap],
      (blk 0 [] [(0, 32767), (1, -32768)] [] [] (par 16 8 o .indirect)).params.overflowPolicy = o ∧
      wordMax 16 < (blk 0 [] [(0, 32767), (1, -32768)] [] [] (par 16 8 o .indirect)).readReg 0 +
        (blk 0 [] [(0, 32767), (1, -32768)] [] [] (par 16 8 o .indirect)).readReg 0 ∧
      (blk 0 [] [(0, 32767), (1, -32768)] [] [] (par 16 8 o .indirect)).readReg 1 -
        (blk 0 [] [(0, 32767), (1, -32768)] [] [] (par 16 8 o .indirect)).readReg 0 < wordMin 16 ∧
      wordMax 16 < (blk 0 [] [(0, 32767), (1, -32768)] [] [] (par 16 8 o .indirect)).readReg 1 *
        (blk 0 [] [(0, 32767), (1, -32768)] [] [] (par 16 8 o .indirect)).readReg 1 := by decide

theorem witness_DivTruncatesTowardZero :
    (∀ e ∈ ([(-7, 2), (7, -2), (-32768, 1), (5, -1)] : List (Word × Word)),
      (blk 0 [] [(0, e.1), (999, e.2)]).readReg 0 = e.1 ∧ (blk 0 [] [(0, e.1), (999, e.2)]).readReg 999 = e.2 ∧
        e.2 ≠ 0 ∧ ¬(e.1 = wordMin 16 ∧ e.2 = -1)) := by decide

theorem witness_DivFaults :
    (blk 0 [] [] [] [] (par 16 8 .wrap .indirect)).readReg 999 = 0 ∧
      (blk 0 [] [(0, -32768), (1, -1)] [] [] (par 16 8 .wrap .indirect)).readReg 0 = wordMin 16 ∧
      (blk 0 [] [(0, -32768), (1, -1)] [] [] (par 16 8 .wrap .indirect)).readReg 1 = -1 := by decide

theorem witness_ArithmeticChecksItsRegisters :
    ((-1 : Word) < 0 ∧ (regCap : Word) ≤ 1000) ∧ ((0 : Word) ≤ 999 ∧ (999 : Word) < regCap ∧ (regCap : Word) ≤ 1000) := by decide

theorem witness_FunctionDeclareBinds :
    ((0 : Word) ≤ 0 ∧ (blk 0 [] [] [[102]]).active.consts[(0 : Word).toNat]? = some [102]) ∧
      (-1 : Word) < 0 ∧ ((blk 0 [] [] [[102]]).active.consts.length : Word) ≤ 1 := by decide

theorem witness_ConstantInMemoryIsAppended :
    (blk 4093 [21, 9, 21]).status = .running ∧ (blk 4093 [21, 9, 21]).readMem (blk 4093 [21, 9, 21]).active.pc = 21 ∧
      (blk 4093 [21, 9, 21]).active.pc < 4095 ∧ 4095 < memCap ∧ (blk 4093 [21, 9, 21]).readMem 4095 = 21 ∧
      ∀ l, (blk 4093 [21, 9, 21]).active.pc < l → l < 4095 → (blk 4093 [21, 9, 21]).readMem l ≠ 21 := by
  refine ⟨by decide, by decide, by decide, by decide, by decide, ?_⟩
  intro l h1 h2
  obtain rfl : l = 4094 := by simp only [blk] at h1; omega
  decide

theorem witness_PrintNumberEmitsTheRegister : (0 : Word) ≤ 999 ∧ (999 : Word) < regCap := by decide

theorem witness_PrintStringEmitsTheConstant :
    ((blk 0 [] [(999, 1)] [[104], []]).params.printMode1 = .indirect ∧
      (blk 0 [] [(999, 1)] [[104], []]).readReg (999 : Word).toNat = 1 ∧
      (blk 0 [] [(999, 1)] [[104], []]).active.consts[(1 : Word).toNat]? = some []) ∧
    ((blk 0 [] [] [[104], []] [] (par 64 8 .fault .direct)).params.printMode1 = .direct ∧
      (blk 0 [] [] [[104], []] [] (par 64 8 .fault .direct)).active.consts[(1 : Word).toNat]? = some []) := by decide

theorem witness_PrintFaults :
    ((2 : Word) ≠ 0 ∧ (2 : Word) ≠ 1) ∧ ((-1 : Word) ≠ 0 ∧ (-1 : Word) ≠ 1) ∧
      ((blk 0 []).params.printMode1 = .indirect ∧ (regCap : Word) ≤ 1000) ∧
      (blk 0 [] [(5, -1), (999, 1)] [[104]]).readReg 5 < 0 ∧
      ((blk 0 [] [(5, -1), (999, 1)] [[104]]).active.consts.length : Word) ≤ (blk 0 [] [(5, -1), (999, 1)] [[104]]).readReg 999 ∧
      ((blk 0 [] [] [[104]] [] (par 64 8 .fault .direct)).params.printMode1 = .direct ∧
        ((blk 0 [] [] [[104]] [] (par 64 8 .fault .direct)).active.consts.length : Word) ≤ 1) := by decide

theorem witness_FunctionCallPushesTheChild :
    (0 : Word) ≤ 0 ∧ caller.active.consts[(0 : Word).toNat]? = some [102] ∧
      caller.active.funs.body [102] = some [3, 4096] ∧ caller.depth ≠ caller.params.maxCallDepth := by decide

theorem witness_FunctionCallFaults :
    ((-1 : Word) < 0 ∧ (caller.active.consts.length : Word) ≤ 1) ∧
    ((blk 0 [] [] [[102]]).active.consts[(0 : Word).toNat]? = some [102] ∧ (blk 0 [] [] [[102]]).active.funs.body [102] = none) ∧
    ((blk 0 [] [] [[102]] [([102], [])] (par 16 1 .fault .indirect)).active.funs.body [102] = some [] ∧
      (blk 0 [] [] [[102]] [([102], [])] (par 16 1 .fault .indirect)).depth =
        (blk 0 [] [] [[102]] [([102], [])] (par 16 1 .fault .indirect)).params.maxCallDepth) := by decide

theorem witness_NewBlockIsLegal : (par 16 1 .wrap .direct).ok = true := by decide

theorem witness_StepKeepsTheInvariant : caller.Inv ∧ step caller = .next (after caller) :=
  ⟨by show caller.wf = true; decide, step_after (by decide)⟩

theorem witness_HostOperationsKeepTheInvariant :
    State.reset.Inv ∧ (∀ w ∈ ([2, 7, 0] : List Word), inRange State.reset.params.wordBits w = true) ∧
      (∃ t, hostLoad [2, 7, 0] State.reset = .next t) ∧ (∃ t, hostStart State.reset = .next t) ∧
      ∃ t, hostNew State.reset = .next t :=
  ⟨by show State.reset.wf = true; decide, by decide, ⟨_, rfl⟩, ⟨_, rfl⟩, _, rfl⟩

theorem witness_FaultIsPrecise :
    (blk 3 [8, 0, 1]).status = .running ∧ step (blk 3 [8, 0, 1]) = .next (after (blk 3 [8, 0, 1])) :=
  ⟨by decide, step_after (by decide)⟩

/-- V60.5: a fault at depth 3. -/
theorem witness_FaultEndsTheWholeRun :
    step (deep { Frame.new with mem := [(0, 8)] }) = .next (after (deep { Frame.new with mem := [(0, 8)] })) ∧
      (after (deep { Frame.new with mem := [(0, 8)] })).status =
        .faulted { kind := .divisionByZero, depth := 3, pc := 0, value := 0 } := ⟨step_after (by decide), by decide⟩

/-- Each of the eight kinds is raised. -/
theorem witness_FaultKindsAndCauses :
    faultsWith .registerOutOfRange (-1) (blk 0 [5, 0, -1]) = true ∧
    faultsWith .unboundFunction 0 (blk 3 [17, 0] [] [[102]]) = true ∧   -- V46.3
    faultsWith .divisionByZero 1 (blk 0 [8, 0, 1]) = true ∧
    faultsWith .memoryOverrun (-5) (blk 0 [4, -5, 0, 0]) = true ∧
    faultsWith .arithmeticOverflow 0 (blk 0 [6, 0, 1] [(1, -32768)] [] [] (par 16 1 .fault .direct)) = true ∧
    faultsWith .constantOutOfRange (-1) (blk 0 [9, -1, 9] [] [[102]]) = true ∧   -- V44.10
    faultsWith .invalidPrintMode (-1) (blk 0 [16, -1, 5000]) = true ∧   -- V45.6
    faultsWith .callDepthExceeded 1 (blk 0 [17, 0] [] [[102]] [([102], [])] (par 16 1 .fault .direct)) = true := by decide

theorem witness_OutputOnlyGrows : step (blk 0 [10]) = .next (after (blk 0 [10])) := step_after (by decide)

/-- After a call both frames are on the stack; an image loaded after a fault at depth 3 reaches the lowest frame only. -/
theorem witness_MemoryIsReadOnlyWhileRunning :
    (step caller = .next (after caller) ∧ caller.stack[0]? = some caller.active ∧
      (after caller).stack[0]?.isSome = true) ∧
    ((∃ t, hostLoad [1] (after (deep { Frame.new with mem := [(0, 8)] })) = .next t ∧ t.stack[0 + 1]?.isSome = true) ∧
      (after (deep { Frame.new with mem := [(0, 8)] })).stack[0 + 1]?.isSome = true) := by
  refine ⟨⟨step_after (by decide), by decide, by decide⟩, ⟨_, rfl, by decide⟩, by decide⟩

theorem witness_FramesBelowAreUntouched :
    step (deep Frame.new) = .next (after (deep Frame.new)) ∧ 1 + 1 < (deep Frame.new).depth ∧
      (deep Frame.new).stack[1]? = some { Frame.new with pc := 2 } := ⟨step_after (by decide), by decide, by decide⟩

/-- Two different blocks that differ only below the active frame. -/
theorem witness_FramesBelowAreNotRead :
    ∃ s' : State, s' ≠ deep Frame.new ∧ (deep Frame.new).active.pc < memCap ∧ s'.params = (deep Frame.new).params ∧
      s'.active = (deep Frame.new).active ∧ s'.depth = (deep Frame.new).depth ∧ s'.status = (deep Frame.new).status ∧
      s'.out = (deep Frame.new).out ∧ step (deep Frame.new) = .next (after (deep Frame.new)) :=
  ⟨{ deep Frame.new with parents := [Frame.new, Frame.new] }, by decide, by decide, by decide, by decide, by decide, by decide,
    by decide, step_after (by decide)⟩

theorem witness_RegistersChangeOnlyByPushAndArithmetic :
    step (blk 0 [7, 0, 999] [(0, 6), (999, 7)]) = .next (after (blk 0 [7, 0, 999] [(0, 6), (999, 7)])) ∧
      ∃ f g, (blk 0 [7, 0, 999] [(0, 6), (999, 7)]).stack[0]? = some f ∧
        (after (blk 0 [7, 0, 999] [(0, 6), (999, 7)])).stack[0]? = some g ∧ Cells.get g.regs 0 ≠ Cells.get f.regs 0 ∧
        Cells.get g.regs 999 ≠ Cells.get f.regs 999 :=
  ⟨step_after (by decide), _, _, rfl, rfl, by decide, by decide⟩

theorem witness_PoolAndTableWriters :
    (step (blk 0 [21, 104, 21]) = .next (after (blk 0 [21, 104, 21])) ∧
      (after (blk 0 [21, 104, 21])).active.consts ≠ (blk 0 [21, 104, 21]).active.consts) ∧
    (step (blk 0 [9, 0, 9] [] [[102]]) = .next (after (blk 0 [9, 0, 9] [] [[102]])) ∧
      (after (blk 0 [9, 0, 9] [] [[102]])).active.funs ≠ (blk 0 [9, 0, 9] [] [[102]]).active.funs) :=
  ⟨⟨step_after (by decide), by decide⟩, step_after (by decide), by decide⟩

theorem witness_PcIncreasesOrIsRedirected :
    step (blk 5 [3, 0]) = .next (after (blk 5 [3, 0])) ∧ (after (blk 5 [3, 0])).status = .running ∧
      (after (blk 5 [3, 0])).stack[(blk 5 [3, 0]).depth - 1]?.isSome = true := ⟨step_after (by decide), by decide, by decide⟩

/-- The call of `caller`, its child's one jump, and the return. -/
theorem witness_CallIsolation :
    caller.active.fetch = .functionCall 0 ∧ step caller = .next (after caller) ∧ (after caller).status = .running ∧
      stepsAbove caller.depth 2 (after caller) (after (after (after caller))) ∧
      (after (after (after caller))).depth = caller.depth :=
  ⟨by decide, step_after (by decide), by decide,
    ⟨by decide, _, step_after (by decide), by decide, _, step_after (by decide), rfl⟩, by decide⟩

theorem witness_NestedRunIsAStackRun :
    caller.status = .running ∧ (nestedRun 3 caller).isSome = true ∧ (nestedRun 1 (blk 0 [8])).isSome = true := by decide

/-- `caller` halts after four steps: call, jump, return, end. -/
theorem witness_EndedStackRunIsANestedRun :
    caller.status = .running ∧ caller.parents = [] ∧
      stepsTo 4 caller (after (after (after (after caller)))) ∧ (after (after (after (after caller)))).status = .halted :=
  ⟨by decide, by decide,
    ⟨_, step_after (by decide), _, step_after (by decide), _, step_after (by decide), _, step_after (by decide), rfl⟩,
    by decide⟩

theorem witness_LoadWritesTheImage : State.reset.status ≠ .running ∧ (after (blk 0 [8])).status ≠ .running := by decide

theorem witness_HostActsOnlyBetweenRuns :
    (deep Frame.new).status = .running ∧ State.reset.status ≠ .running ∧ State.reset.status = .idle ∧
      (after (blk 0 [8])).status = .faulted { kind := .divisionByZero, depth := 1, pc := 0, value := 0 } := by decide

/-- `new` after a fault (V60.3). -/
theorem witness_NewBlockState :
    (after (blk 0 [8])).status ≠ .running ∧ hostNew (after (blk 0 [8])) = .next (State.new std) := ⟨by decide, rfl⟩

/-- A block that faulted at depth 3. -/
theorem witness_DumpReadsTheTopLevelFrame :
    (after (deep { Frame.new with mem := [(0, 8)] })).status ≠ .running ∧
      (after (deep { Frame.new with mem := [(0, 8)] })).stack[0]? = some { Frame.new with regs := [(0, 5)], pc := 2 } := by
  decide

theorem witness_RunEndsHaltedOrFaulted :
    (State.reset.status = .idle ∧ ∃ t, hostRun 2 (State.reset.changeTopLevel (fun f => { f with pc := 4095 })) = .ended t) ∧
      (after (blk 0 [8])).status = .faulted { kind := .divisionByZero, depth := 1, pc := 0, value := 0 } ∧
      ((after (blk 4096 [])).status = .halted ∧ (after (blk 4096 [])).parents = [] ∧ memCap ≤ (after (blk 4096 [])).active.pc) :=
  ⟨⟨by decide, _, rfl⟩, by decide, by decide⟩

theorem witness_ImageBytesAreSignExtended :
    ([0x7F, 0x80] : List (BitVec 8))[0]? = some 0x7F ∧ ([0x7F, 0x80] : List (BitVec 8))[1]? = some 0x80 := by decide

theorem witness_PlacedWordIsRun : decodeTableWord 128 (3 + 4096 * 2 ^ 64) = some (.jump 4096) := by decide

end Sys2Proof.Tests
end

section
/-! SUPPORT. The context stack as a whole: its memories from the top level up, what a step does to that list, and which frame
`load` changes. Settles O39 (10_state.md R29). -/

namespace Sys2Proof.Machine

/-! ## The memories of the context stack -/

/-- The instruction memories of the context stack, the top-level frame's first (10_state.md R22, R29). -/
def State.memories (s : State) : List Memory := s.stack.map Frame.mem

theorem memories_eq (s : State) : s.memories = (s.parents.map Frame.mem).reverse ++ [s.active.mem] := by
  simp [State.memories, State.stack]

theorem memories_prefix_of_mem_eq {s t : State} (hp : t.parents = s.parents) (hm : t.active.mem = s.active.mem) :
    s.memories <+: t.memories := by
  rw [memories_eq, memories_eq, hp, hm]

/-- The frames at one position of two stacks hold the same memory when the memories of one stack begin those of the other. -/
theorem mem_eq_of_memories_prefix {s t : State} {k : Nat} {f g : Frame} (h : s.memories <+: t.memories)
    (hf : s.stack[k]? = some f) (hg : t.stack[k]? = some g) : g.mem = f.mem := by
  have hf' : s.memories[k]? = some f.mem := by simp [State.memories, hf]
  have hg' : t.memories[k]? = some g.mem := by simp [State.memories, hg]
  obtain ⟨above, ht⟩ := h
  obtain ⟨hk, -⟩ := List.getElem?_eq_some_iff.mp hf'
  rw [← ht, List.getElem?_append_left hk, hf', Option.some.injEq] at hg'
  exact hg'.symm

/-! ## What a step does to them -/

@[simp] theorem endBlock_parents (s : State) (which : BlockKind) (len : Nat) (closed : Bool) :
    (s.endBlock which len closed).parents = s.parents := by
  cases closed <;> rfl

@[simp] theorem endBlock_mem (s : State) (which : BlockKind) (len : Nat) (closed : Bool) :
    (s.endBlock which len closed).active.mem = s.active.mem := by
  cases closed <;> rfl

/-- An instruction keeps every memory of the stack in its place; a call adds the child's after them (46_call_context.md
R215). -/
theorem Effect.memories_prefix {s t : State} {i : Instr} (h : Effect s i t) : s.memories <+: t.memories := by
  cases h
  case functionCall k name body hn hb hd =>
    refine ⟨[(s.active.child body).mem], ?_⟩
    simp [memories_eq]
  all_goals
    exact memories_prefix_of_mem_eq (by simp) (by simp)

/-- The end of a frame drops at most the active frame's memory (40_fetch_dispatch.md R100, 46_call_context.md R220). -/
theorem endFrame_memories_prefix (s : State) : (endFrame s).memories <+: s.memories := by
  cases hp : s.parents with
  | nil => exact memories_prefix_of_mem_eq (by simp [endFrame, hp]) (by simp [endFrame, hp])
  | cons caller below => exact ⟨[s.active.mem], by simp [memories_eq, endFrame, hp]⟩

/-- Before and after a step, the memories of one stack begin those of the other: no memory on both is written. -/
theorem step_memories_prefix {s t : State} (h : step s = .next t) :
    s.memories <+: t.memories ∨ t.memories <+: s.memories := by
  obtain ⟨-, ⟨-, rfl⟩ | ⟨-, -, he⟩⟩ := step_cases h
  · exact .inr (endFrame_memories_prefix s)
  · exact .inl he.memories_prefix

/-! ## The frame that `load` changes -/

theorem modifyHead_append {l : List Frame} (g : Frame → Frame) (r : List Frame) (h : l ≠ []) :
    (l ++ r).modifyHead g = l.modifyHead g ++ r := by
  cases l with
  | nil => exact absurd rfl h
  | cons f fs => rfl

theorem changeLast_reverse (g : Frame → Frame) (fs : List Frame) :
    (changeLast g fs).reverse = fs.reverse.modifyHead g := by
  induction fs using changeLast.induct with
  | case1 => rfl
  | case2 f => rfl
  | case3 f f' fs ih =>
    rw [changeLast, List.reverse_cons, ih, List.reverse_cons (a := f), modifyHead_append g [f] (by simp)]

/-- The top-level frame is the first of the stack (10_state.md R22). -/
theorem changeTopLevel_stack (g : Frame → Frame) (s : State) : (s.changeTopLevel g).stack = s.stack.modifyHead g := by
  cases hp : s.parents with
  | nil => simp [State.stack, State.changeTopLevel, hp]
  | cons f fs =>
    have hne : (f :: fs).reverse ≠ [] := by simp
    rw [State.stack, State.stack, hp, modifyHead_append g [s.active] hne, ← changeLast_reverse]
    simp [State.changeTopLevel, hp]

end Sys2Proof.Machine

open Sys2Proof Sys2Proof.Machine

/-- Settles O39: the memories of the stack before and after a step begin one another, and `load` changes the head of the
stack only. -/
theorem memoryIsReadOnlyWhileRunning : Obligations.MemoryIsReadOnlyWhileRunning := by
  refine ⟨fun s t k f g h hf hg => ?_, fun words s t k f g h hf hg => ?_⟩
  · rcases step_memories_prefix h with hst | hts
    · exact mem_eq_of_memories_prefix hst hf hg
    · exact (mem_eq_of_memories_prefix hts hg hf).symm
  · obtain ⟨-, rfl⟩ := hostLoad_next.mp h
    rw [changeTopLevel_stack, List.getElem?_modifyHead_succ, hf, Option.some.injEq] at hg
    rw [hg]

end

section
/-! SUPPORT. Totality and determinism of the step, and instructions that only emit and advance. Settles O11, O7 and O13
(40_fetch_dispatch.md R107, R102, R104). -/

namespace Sys2Proof.Machine

/-! ## The step as a total function -/

/-- A Running block always steps: at the end of the frame by `endFrame`, before it by the fetched instruction, which is
total. -/
theorem step_total {s : State} (h : s.status = .running) : ∃ t, step s = .next t := by
  by_cases hp : memCap ≤ s.active.pc
  · exact ⟨endFrame s, by simp [step, h, hp]⟩
  · obtain ⟨t, ht, -⟩ := exec_effect s.active.fetch s
    exact ⟨t, by rw [step_eq_exec h (Nat.lt_of_not_le hp), ht]⟩

theorem stepsTo_deterministic {n : Nat} {s t t' : State} (h : stepsTo n s t) (h' : stepsTo n s t') : t = t' := by
  induction n generalizing s with
  | zero => exact h.symm.trans h'
  | succ n ih =>
    obtain ⟨u, hu, hrun⟩ := h
    obtain ⟨u', hu', hrun'⟩ := h'
    obtain rfl : u = u' := by simpa [hu] using hu'
    exact ih hrun hrun'

/-! ## Instructions that only emit and advance -/

/-- `adv` after a state that differs from `s` in its output alone (R103). -/
theorem emitsOnly_adv {s u : State} {events : List Event} (k : Nat) (hout : u.out = s.out ++ events)
    (hactive : u.active = s.active) (hblock : keepsBlock s u) : emitsOnly events (1 + k) s (u.adv k) :=
  ⟨hout, by simp [hactive, Nat.add_assoc], fun i _ => by simp [State.readReg, hactive],
    fun a => by simp [State.readMem, hactive], by simp [keepsPool, hactive], fun name _ => by simp [hactive], hblock⟩

end Sys2Proof.Machine

open Sys2Proof Sys2Proof.Machine

/-- Settles O11: the end of a frame and every instruction answer a next state, and runs of equal length are compared step by
step. -/
theorem stepIsTotalWhileRunning : Obligations.StepIsTotalWhileRunning :=
  ⟨fun _ => step_total, fun _ _ _ _ => stepsTo_deterministic⟩

/-- Settles O7, by the rule for operand reads over the words that follow the opcode. -/
theorem operandIsMemoryOrSentinel : Obligations.OperandIsMemoryOrSentinel :=
  fun f _ => opnd_following f

/-- Settles O13: both encodings run as `adv` of no operand on the state itself. -/
theorem nopOnlyAdvances : Obligations.NopOnlyAdvances := by
  intro alt s
  have hexec : exec (.nop alt) s = .next (s.adv 0) := rfl
  exact ⟨rfl, s.adv 0, hexec, emitsOnly_adv 0 (by simp) rfl ⟨rfl, rfl, rfl⟩⟩

end

section
/-! SUPPORT. The registers of the frames on the stack: what push leaves, and which register each instruction may write.
Settles O42 and O15 (41_data_movement.md R121, R120). -/

namespace Sys2Proof.Machine

/-! ## Push -/

theorem exec_push (v i : Word) (s : State) :
    exec (.push v i) s = withReg i s (fun r => .next ((s.writeReg r v).adv 2)) := rfl

/-- A push to a valid register completes (R120). -/
theorem exec_push_valid {v i : Word} (s : State) (h0 : 0 ≤ i) (h1 : i < (regCap : Int)) :
    exec (.push v i) s = .next ((s.writeReg i.toNat v).adv 2) := by
  rw [exec_push, withReg_valid h0 h1]

/-- A push to an invalid register-index faults (R120). -/
theorem exec_push_invalid {v i : Word} (s : State) (h : i < 0 ∨ (regCap : Int) ≤ i) :
    exec (.push v i) s = .next (s.fault .registerOutOfRange i) := by
  rw [exec_push, withReg_invalid h]

@[simp] theorem readReg_adv (s : State) (k r : Nat) : (s.adv k).readReg r = s.readReg r := rfl

@[simp] theorem readReg_writeReg_same (s : State) (r : Nat) (v : Word) : (s.writeReg r v).readReg r = v :=
  get_set_same _ r v

theorem readReg_writeReg_ne (s : State) {r j : Nat} (v : Word) (h : j ≠ r) : (s.writeReg r v).readReg j = s.readReg j :=
  get_set_ne _ v h

/-- Opcode 2 fetches a push of the two words after it. -/
theorem fetch_push {f : Frame} (h : Cells.get f.mem f.pc = 2) :
    f.fetch = .push (opnd f.following 1) (opnd f.following 2) := by
  rw [Frame.fetch, h]
  rfl

/-- A push in the last two words of memory has the sentinel for its register-index, so it writes register 0 and ends at
MEM_CAP (R102, R120). -/
theorem step_push_at_end {s : State} (hs : s.status = .running) (hw : s.readMem s.active.pc = 2)
    (hlo : memCap ≤ s.active.pc + 2) (hhi : s.active.pc < memCap) :
    ∃ t, step s = .next t ∧ t.readReg 0 = opnd s.active.following 1 ∧ t.active.pc = memCap := by
  have hreg : opnd s.active.following 2 = 0 := by
    rw [opnd_following _ (by decide), if_neg (Nat.not_lt.mpr hlo)]
  refine ⟨(s.writeReg 0 (opnd s.active.following 1)).adv 2, ?_, by simp, Nat.min_eq_right (Nat.le_succ_of_le hlo)⟩
  rw [step_eq_exec hs hhi, fetch_push hw, hreg]
  exact exec_push_valid s (le_refl 0) (by decide)

theorem exec_print_zero (i : Word) (s : State) :
    exec (.print 0 i) s = withReg i s (fun r => .next ((s.emit (.num (s.readReg r))).adv 2)) := rfl

/-- `print 0` of a valid register emits its value (45_output.md R200). -/
theorem exec_print_num {i : Word} (s : State) (h0 : 0 ≤ i) (h1 : i < (regCap : Int)) :
    exec (.print 0 i) s = .next ((s.emit (.num (s.readReg i.toNat))).adv 2) := by
  rw [exec_print_zero, withReg_valid h0 h1]

/-! ## Which instruction may write which register -/

/-- A push to register `r`, or an arithmetic instruction that names it (R121). -/
def mayWriteReg (i : Instr) (r : Nat) : Prop :=
  (∃ v j, i = .push v j ∧ j = (r : Int)) ∨
    ∃ a b, (a = (r : Int) ∨ b = (r : Int)) ∧ (i = .add a b ∨ i = .sub a b ∨ i = .mul a b ∨ i = .div a b)

theorem mayWriteReg_push {v j : Word} {r : Nat} (h0 : 0 ≤ j) (hr : r = j.toNat) : mayWriteReg (.push v j) r :=
  .inl ⟨v, j, rfl, by rw [hr, Int.toNat_of_nonneg h0]⟩

theorem mayWriteReg_arithmetic {i : Instr} {a b : Word} {r : Nat} {op : Params → Word → Word → AluResult}
    (hi : (i = .add a b ∧ op = aluAdd) ∨ (i = .sub a b ∧ op = aluSub) ∨ (i = .mul a b ∧ op = aluMul) ∨
      (i = .div a b ∧ op = aluDiv))
    (ha0 : 0 ≤ a) (hb0 : 0 ≤ b) (hr : r = a.toNat ∨ r = b.toNat) : mayWriteReg i r := by
  refine .inr ⟨a, b, ?_, hi.imp And.left (Or.imp And.left (Or.imp And.left And.left))⟩
  exact hr.imp (fun h => by rw [h, Int.toNat_of_nonneg ha0]) (fun h => by rw [h, Int.toNat_of_nonneg hb0])

@[simp] theorem endBlock_regs (s : State) (which : BlockKind) (len : Nat) (closed : Bool) :
    (s.endBlock which len closed).active.regs = s.active.regs := by
  cases closed <;> rfl

/-! ## The frames of the stack over a step -/

theorem stack_of_parents_eq {s t : State} (h : t.parents = s.parents) : t.stack = s.parents.reverse ++ [t.active] := by
  rw [State.stack, h]

/-- An instruction keeps the frames below the active one, and the frame that ran it keeps every register it may not write;
what a call adds stands above both (R121). -/
theorem Effect.stack_regs {s t : State} {i : Instr} (h : Effect s i t) :
    ∃ g above, t.stack = s.parents.reverse ++ g :: above ∧
      ∀ r, ¬ mayWriteReg i r → Cells.get g.regs r = Cells.get s.active.regs r := by
  cases h with
  | functionCall k name body hn hb hd =>
    exact ⟨(s.adv 1).active, [s.active.child body], by simp [State.stack], fun r _ => rfl⟩
  | push v j h0 h1 =>
    refine ⟨_, [], stack_of_parents_eq rfl, fun r hr => ?_⟩
    have hne : r ≠ j.toNat := fun h => hr (mayWriteReg_push h0 h)
    exact get_set_ne _ v hne
  | arithmetic _ a b x op hi ha0 ha1 hb0 hb1 hx =>
    refine ⟨_, [], stack_of_parents_eq rfl, fun r hr => ?_⟩
    have hne : ¬ (r = a.toNat ∨ r = b.toNat) := fun h => hr (mayWriteReg_arithmetic hi ha0 hb0 h)
    obtain ⟨hra, hrb⟩ := not_or.mp hne
    exact (get_set_ne _ 0 hrb).trans (get_set_ne _ x hra)
  | _ =>
    exact ⟨_, [], stack_of_parents_eq (by simp), fun r _ => by simp⟩

/-- The end of a frame drops at most the active frame (40_fetch_dispatch.md R100, 46_call_context.md R220). -/
theorem endFrame_stack_prefix (s : State) : (endFrame s).stack <+: s.stack := by
  cases hp : s.parents with
  | nil => simp [State.stack, endFrame, hp]
  | cons caller below => exact ⟨[s.active], by simp [State.stack, endFrame, hp]⟩

/-- A register of a frame on the stack that differs after a step is one that the active frame's instruction may write. -/
theorem step_regs {s t : State} {k r : Nat} {f g : Frame} (h : step s = .next t) (hf : s.stack[k]? = some f)
    (hg : t.stack[k]? = some g) (hne : Cells.get g.regs r ≠ Cells.get f.regs r) :
    k + 1 = s.depth ∧ mayWriteReg s.active.fetch r := by
  have hfg : g ≠ f := fun h => hne (by rw [h])
  obtain ⟨-, ⟨-, rfl⟩ | ⟨-, -, he⟩⟩ := step_cases h
  · obtain ⟨popped, hs⟩ := endFrame_stack_prefix s
    obtain ⟨hk, -⟩ := List.getElem?_eq_some_iff.mp hg
    rw [← hs, List.getElem?_append_left hk, hg, Option.some.injEq] at hf
    exact absurd hf hfg
  · obtain ⟨g', above, ht, hkeep⟩ := he.stack_regs
    rw [ht] at hg
    rw [State.stack] at hf
    rcases lt_trichotomy k s.parents.length with hk | rfl | hk
    · have hk' : k < s.parents.reverse.length := by simpa using hk
      rw [List.getElem?_append_left hk'] at hf hg
      exact absurd (Option.some.inj (hg.symm.trans hf)) hfg
    · obtain rfl : s.active = f := by simpa using hf
      obtain rfl : g' = g := by simpa using hg
      exact ⟨rfl, by_contra fun hw => hne (hkeep r hw)⟩
    · have hlen := (List.getElem?_eq_some_iff.mp hf).1
      simp only [List.length_append, List.length_reverse, List.length_singleton] at hlen
      omega

end Sys2Proof.Machine

open Sys2Proof Sys2Proof.Machine

/-- Settles O42: a step keeps the frames below the active one and every register its instruction does not name, and `print 0`
reads the register just pushed. -/
theorem registersChangeOnlyByPushAndArithmetic : Obligations.RegistersChangeOnlyByPushAndArithmetic := by
  refine ⟨fun s t k r f g h hf hg hne => step_regs h hf hg hne, fun v i s h0 h1 => ?_⟩
  exact ⟨_, _, exec_push_valid s h0 h1, exec_print_num _ h0 h1, by simp⟩

/-- Settles O15: the two answers of a push, and the operands read in the last two words of memory. -/
theorem pushWritesTheRegister : Obligations.PushWritesTheRegister := by
  intro v i s
  refine ⟨rfl, fun h0 h1 => ?valid, fun h => exec_push_invalid s h, fun hs hw hpc => ?twoLeft, fun hs hw hpc => ?oneLeft⟩
  case valid =>
    have hregs : keepsRegsBut [i.toNat] s ((s.writeReg i.toNat v).adv 2) := fun j hj =>
      readReg_writeReg_ne s v (by simpa using hj)
    exact ⟨_, exec_push_valid s h0 h1, by simp, hregs, rfl, fun _ => rfl, rfl, fun _ _ => rfl, rfl, rfl, rfl, rfl⟩
  case twoLeft =>
    have hv : opnd s.active.following 1 = s.readMem (memCap - 1) := by
      rw [opnd_following _ (le_refl 1), hpc]
      rfl
    exact hv ▸ step_push_at_end hs hw (by rw [hpc]; decide) (by rw [hpc]; decide)
  case oneLeft =>
    have hv : opnd s.active.following 1 = 0 := by
      rw [opnd_following _ (le_refl 1), hpc]
      rfl
    exact hv ▸ step_push_at_end hs hw (by rw [hpc]; decide) (by rw [hpc]; decide)

end

section
/-! SUPPORT. A window of a memory as a list: its words, and where it can be cut. Settles O6 (44_block_parsers.md R180). -/

namespace Sys2Proof.Machine

/-- A property of the memory's words from `a` to `a + n - 1` holds of the window's words. -/
theorem forall_mem_window {p : Word → Prop} {m : Memory} {a n : Nat} (h : ∀ l, a ≤ l → l < a + n → p (m.get l)) :
    ∀ w ∈ m.window a n, p w := by
  induction n generalizing a with
  | zero => simp [Memory.window]
  | succ n ih =>
    have hhead : p (m.get a) := h a (le_refl a) (by omega)
    have htail : ∀ w ∈ m.window (a + 1) n, p w := ih fun l hl hu => h l (by omega) (by omega)
    exact List.forall_mem_cons.mpr ⟨hhead, htail⟩

theorem window_append (m : Memory) (a k n : Nat) : m.window a (k + n) = m.window a k ++ m.window (a + k) n := by
  induction k generalizing a with
  | zero => simp [Memory.window]
  | succ k ih =>
    have hn : k + 1 + n = k + n + 1 := by omega
    have ha : a + (k + 1) = a + 1 + k := by omega
    simp [Memory.window, hn, ha, ih]

/-- The words from `s` to the end of memory, cut at an index `j` among them. -/
theorem window_toEnd_split (m : Memory) {s j : Nat} (hs : s ≤ j) (hj : j < memCap) :
    m.window s (memCap - s) = m.window s (j - s) ++ m.get j :: m.window (j + 1) (memCap - (j + 1)) := by
  have hlen : memCap - s = (j - s) + (memCap - (j + 1) + 1) := by omega
  rw [hlen, window_append, Nat.add_sub_cancel' hs]
  rfl

end Sys2Proof.Machine

open Sys2Proof Sys2Proof.Machine

/-- Settles O6: cut at the first delimiter, the window is a payload without it, the delimiter and the rest; without a
delimiter it is all payload. -/
theorem scanStopsAtTheFirstDelimiter : Obligations.ScanStopsAtTheFirstDelimiter := by
  refine fun m d s => ⟨fun j hs hj hd hbefore => ?found, fun hnone => ?notFound⟩
  case found =>
    rw [window_toEnd_split m hs hj, hd]
    exact scan_closed d _ _ (forall_mem_window fun l hl hu => hbefore l hl (by omega))
  case notFound =>
    exact scan_open d _ (forall_mem_window fun l hl hu => hnone l hl (by omega))

end

section
/-! SUPPORT. What a fault stops, and a suspended caller: what stands while the stack is deeper than it, and what it finds when
it is active again. Settles O36 and O46 (46_call_context.md R223, R222). -/

namespace Sys2Proof.Machine

/-! ## The end of a frame -/

/-- At depth 1 the end of the frame halts the block (40_fetch_dispatch.md R100). -/
theorem endFrame_top {s : State} (h : s.parents = []) : endFrame s = { s with status := .halted } := by
  simp [endFrame, h]

/-- Deeper, the end of the frame makes its caller active and does nothing else (46_call_context.md R220). -/
theorem endFrame_child {s : State} {caller : Frame} {below : List Frame} (h : s.parents = caller :: below) :
    endFrame s = { s with active := caller, parents := below } := by
  simp [endFrame, h]

/-! ## Faults -/

@[simp] theorem endBlock_status (s : State) (which : BlockKind) (len : Nat) (closed : Bool) :
    (s.endBlock which len closed).status = s.status := by
  cases closed <;> rfl

theorem Effect.fault_or_keeps_status {s t : State} {i : Instr} (h : Effect s i t) :
    (∃ kind value, t = s.fault kind value) ∨ t.status = s.status := by
  cases h with
  | fault _ kind value => exact .inl ⟨kind, value, rfl⟩
  | _ => exact .inr (by simp)

/-- A block becomes Faulted by an instruction's fault alone, never at the end of a frame. -/
theorem fault_of_step_faulted {s t : State} {r : FaultRecord} (h : step s = .next t) (ht : t.status = .faulted r) :
    ∃ kind value, t = s.fault kind value := by
  obtain ⟨hs, ⟨-, rfl⟩ | ⟨-, -, he⟩⟩ := step_cases h
  · cases hp : s.parents with
    | nil => simp [endFrame_top hp] at ht
    | cons caller below => simp [endFrame_child hp, hs] at ht
  · rcases he.fault_or_keeps_status with hfault | hkeep
    · exact hfault
    · simp [hkeep, hs] at ht

theorem step_ne_next {s : State} (h : s.status ≠ .running) (u : State) : step s ≠ .next u :=
  fun hu => h (step_cases hu).1

/-! ## The output -/

theorem endBlock_out_prefix (s : State) (which : BlockKind) (len : Nat) (closed : Bool) :
    s.out <+: (s.endBlock which len closed).out := by
  cases closed with
  | false => exact List.prefix_append ..
  | true => exact List.prefix_rfl

theorem Effect.out_prefix {s t : State} {i : Instr} (h : Effect s i t) : s.out <+: t.out := by
  cases h with
  | unrecognized w => exact List.prefix_append ..
  | print m i e => exact List.prefix_append ..
  | functionDeclare k body closed name hn => exact endBlock_out_prefix (s.bindFun name body) ..
  | constantLiteral codes closed => exact endBlock_out_prefix (s.appendConst codes) ..
  | _ => exact List.prefix_rfl

@[simp] theorem endFrame_out (s : State) : (endFrame s).out = s.out := by
  cases hp : s.parents with
  | nil => rw [endFrame_top hp]
  | cons caller below => rw [endFrame_child hp]

theorem step_out_prefix {s t : State} (h : step s = .next t) : s.out <+: t.out := by
  obtain ⟨-, ⟨-, rfl⟩ | ⟨-, -, he⟩⟩ := step_cases h
  · rw [endFrame_out]
  · exact he.out_prefix

/-! ## The frames of the stack and the depth -/

@[simp] theorem stack_length (s : State) : s.stack.length = s.depth := by
  simp [State.stack, State.depth]

theorem stack_inj {s t : State} : s.stack = t.stack ↔ s.active = t.active ∧ s.parents = t.parents := by
  simp [State.stack, and_comm]

theorem endFrame_stack_child {s : State} {caller : Frame} {below : List Frame} (h : s.parents = caller :: below) :
    (endFrame s).stack = s.parents.reverse := by
  simp [endFrame_child h, State.stack, h]

/-- The frames below the active one begin the stack after a step (10_state.md R22, R23). -/
theorem step_keeps_frames_below {s t : State} (h : step s = .next t) : s.parents.reverse <+: t.stack := by
  obtain ⟨-, ⟨-, rfl⟩ | ⟨-, -, he⟩⟩ := step_cases h
  · cases hp : s.parents with
    | nil => exact List.nil_prefix
    | cons caller below => rw [endFrame_stack_child hp, hp]
  · obtain ⟨g, above, ht, -⟩ := he.stack_regs
    exact ⟨g :: above, ht.symm⟩

theorem Effect.depth_le {s t : State} {i : Instr} (h : Effect s i t) : s.depth ≤ t.depth := by
  obtain ⟨g, above, ht, -⟩ := h.stack_regs
  rw [← stack_length t, ht]
  simp [State.depth]

/-- The depth falls by a context return alone, which leaves the block Running (46_call_context.md R220). -/
theorem running_of_depth_lt {s t : State} (h : step s = .next t) (hd : t.depth < s.depth) : t.status = .running := by
  obtain ⟨hs, ⟨-, rfl⟩ | ⟨-, -, he⟩⟩ := step_cases h
  · cases hp : s.parents with
    | nil => simp [endFrame_top hp, State.depth] at hd
    | cons caller below => simpa [endFrame_child hp] using hs
  · exact absurd hd (Nat.not_lt.mpr he.depth_le)

/-! ## A suspended caller -/

/-- A function-call that completes leaves the caller at its return point, below a child (46_call_context.md R215). -/
theorem step_functionCall {s t : State} {k : Word} (hp : s.active.pc < memCap) (hf : s.active.fetch = .functionCall k)
    (h : step s = .next t) (ht : t.status = .running) : ∃ child, t = (s.adv 1).pushFrame child := by
  obtain ⟨-, ⟨hend, -⟩ | ⟨-, -, he⟩⟩ := step_cases h
  · exact absurd hp (Nat.not_lt.mpr hend)
  · rw [hf] at he
    cases he with
    | fault => simp at ht
    | arithmetic _ a b r op hi => simp at hi
    | functionCall _ name body => exact ⟨s.active.child body, rfl⟩

/-- In `u`, the context of `r` is kept: its frames at the bottom of the stack and its output before the rest; and if no frame
stands above them, the block is Running. -/
structure Suspended (r u : State) : Prop where
  frames : r.stack <+: u.stack
  out : r.out <+: u.out
  running : u.depth = r.depth → u.status = .running

theorem suspended_pushFrame (r : State) (child : Frame) : Suspended r (r.pushFrame child) where
  frames := ⟨[child], by simp [State.stack]⟩
  out := List.prefix_rfl
  running hd := by simp [State.depth] at hd

/-- A step taken above `r` keeps it suspended. -/
theorem Suspended.step {r u v : State} (h : Suspended r u) (hd : r.depth < u.depth) (hv : step u = .next v) :
    Suspended r v where
  frames := by
    have hlen : r.stack.length ≤ u.parents.reverse.length := by simpa [State.depth] using Nat.le_of_lt_succ hd
    have hbelow : r.stack <+: u.parents.reverse :=
      List.prefix_of_prefix_length_le h.frames (List.prefix_append ..) hlen
    exact hbelow.trans (step_keeps_frames_below hv)
  out := h.out.trans (step_out_prefix hv)
  running heq := running_of_depth_lt hv (heq ▸ hd)

theorem Suspended.stepsAbove {r u v : State} {n : Nat} (h : Suspended r u) (hrun : stepsAbove r.depth n u v) :
    Suspended r v := by
  induction n generalizing u with
  | zero => exact hrun ▸ h
  | succ n ih =>
    obtain ⟨hd, w, hw, hrest⟩ := hrun
    exact ih (h.step hd hw) hrest

/-- At the depth of `r`, the frames are those of `r`. -/
theorem Suspended.returned {r u : State} (h : Suspended r u) (hd : u.depth = r.depth) :
    u.active = r.active ∧ u.parents = r.parents :=
  stack_inj.mp (h.frames.eq_of_length (by simp [hd])).symm

end Sys2Proof.Machine

open Sys2Proof Sys2Proof.Machine

/-- Settles O36: only `raise` makes a block Faulted, and it changes nothing but the status, in which no step is enabled. -/
theorem faultEndsTheWholeRun : Obligations.FaultEndsTheWholeRun := by
  intro s t r _ h ht
  have hstop : t.status ≠ .running := by simp [ht]
  obtain ⟨kind, value, rfl⟩ := fault_of_step_faulted h ht
  exact ⟨rfl, rfl, step_ne_next hstop⟩

/-- Settles O46: the caller at its return point, `s.adv 1`, is suspended by the call and stays so at every step above it. -/
theorem callIsolation : Obligations.CallIsolation := by
  intro s t u k n _ hp hf h ht hrun hd
  obtain ⟨child, rfl⟩ := step_functionCall hp hf h ht
  have hu : Suspended (s.adv 1) u := (suspended_pushFrame (s.adv 1) child).stepsAbove hrun
  obtain ⟨hactive, hparents⟩ := hu.returned hd
  exact ⟨hactive, hparents, hu.running hd, hu.out⟩

end

section
/-! SUPPORT. The decoder against the encoder: the words of a decoded instruction are its opcode, its operands and, for a
block, what its scan took. Settles O1 to O5 (30_encoding.md). -/

namespace Sys2Proof

/-! ## Decoding an encoding -/

theorem decode_functionDeclare (k : Word) (us : List Word) : decode (opFunc :: k :: us) =
    .ok (.functionDeclare k (scan opFunc us).payload (scan opFunc us).closed, (scan opFunc us).rest) := rfl

theorem decode_constantLiteral (us : List Word) : decode (opConst :: us) =
    .ok (.constantLiteral (scan opConst us).payload (scan opConst us).closed, (scan opConst us).rest) := rfl

theorem decode_of_unrecognized {w : Word} (h : isUnrecognized w = true) (ws : List Word) :
    decode (w :: ws) = .ok (.unrecognized w, ws) := by
  simp [decode, decodeWord, opcodeOf_unrecognized h]

/-- An instruction whose end its own words show leaves over whatever follows it (30_encoding.md R71, R72). -/
theorem decode_encode_append {W : Nat} {i : Instr} (hi : i.wf W = true) (hd : i.selfDelimited = true)
    (rest : List Word) : decode (encode i ++ rest) = .ok (i, rest) := by
  cases i with
  | nop alt => cases alt <;> rfl
  | functionDeclare k body closed =>
    obtain rfl : closed = true := hd
    simp only [Instr.wf, Bool.and_eq_true] at hi
    obtain ⟨⟨-, hbody⟩, -⟩ := hi
    have henc : encode (.functionDeclare k body true) ++ rest = opFunc :: k :: (body ++ opFunc :: rest) := by
      simp [encode, closing]
    rw [henc, decode_functionDeclare, scan_closed opFunc body rest (payload_ne hbody)]
  | constantLiteral codes closed =>
    obtain rfl : closed = true := hd
    simp only [Instr.wf, Bool.and_eq_true] at hi
    have henc : encode (.constantLiteral codes true) ++ rest = opConst :: (codes ++ opConst :: rest) := by
      simp [encode, closing]
    rw [henc, decode_constantLiteral, scan_closed opConst codes rest (payload_ne hi.1)]
  | unrecognized w =>
    simp only [Instr.wf, Bool.and_eq_true] at hi
    exact decode_of_unrecognized hi.2 rest
  | _ => rfl

/-- A block without its delimiter takes every word to the end (44_block_parsers.md R182). -/
theorem decode_encode_open {W : Nat} {i : Instr} (hi : i.wf W = true) (hd : i.selfDelimited = false) :
    decode (encode i) = .ok (i, []) := by
  cases i with
  | functionDeclare k body closed =>
    obtain rfl : closed = false := hd
    simp only [Instr.wf, Bool.and_eq_true] at hi
    obtain ⟨⟨-, hbody⟩, -⟩ := hi
    have henc : encode (.functionDeclare k body false) = opFunc :: k :: body := by simp [encode, closing]
    rw [henc, decode_functionDeclare, scan_open opFunc body (payload_ne hbody)]
  | constantLiteral codes closed =>
    obtain rfl : closed = false := hd
    simp only [Instr.wf, Bool.and_eq_true] at hi
    have henc : encode (.constantLiteral codes false) = opConst :: codes := by simp [encode, closing]
    rw [henc, decode_constantLiteral, scan_open opConst codes (payload_ne hi.1)]
  | _ => simp [Instr.selfDelimited] at hd

/-! ## Encoding what was decoded -/

/-- The first `k` operands over the words that follow an opcode, the sentinel 0 beyond their end (R102). -/
def operands (k : Nat) (ws : List Word) : List Word := (List.range k).map fun n => opnd ws (n + 1)

@[simp] theorem operands_length (k : Nat) (ws : List Word) : (operands k ws).length = k := by simp [operands]

theorem operands_nil (k : Nat) : operands k [] = List.replicate k 0 := by
  simp [operands, opnd, List.map_const']

theorem operands_cons (k : Nat) (w : Word) (ws : List Word) : operands (k + 1) (w :: ws) = w :: operands k ws := by
  simp [operands, List.range_succ_eq_map, opnd, Function.comp_def]

/-- Operands and the words after them are the words themselves, with a zero for each operand beyond their end. -/
theorem operands_append_drop (k : Nat) (ws : List Word) :
    operands k ws ++ ws.drop k = ws ++ List.replicate (k - ws.length) 0 := by
  induction ws generalizing k with
  | nil => simp [operands_nil]
  | cons w ws ih =>
    cases k with
    | zero => simp [operands]
    | succ k => simp [operands_cons, ih k]

/-- The number of operand words in the format of an opcode (30_encoding.md R71). -/
def Opcode.operandCount : Opcode → Nat
  | .nop0 | .nop1 | .constantLiteral | .unrecognized => 0
  | .jump | .functionDeclare | .functionCall => 1
  | .push | .add | .sub | .mul | .div | .print => 2
  | .jumpIfEqual => 3

theorem Opcode.operandCount_le (o : Opcode) : o.operandCount ≤ 3 := by cases o <;> decide

/-- The opcode value of an answer of the opcode comparison; for an unrecognized word, that word (R75, R76). -/
def Opcode.value (w : Word) : Opcode → Word
  | .nop0 => opNop0
  | .nop1 => opNop1
  | .push => opPush
  | .jump => opJump
  | .jumpIfEqual => opJeq
  | .add => opAdd
  | .sub => opSub
  | .mul => opMul
  | .div => opDiv
  | .functionDeclare => opFunc
  | .print => opPrint
  | .functionCall => opCall
  | .constantLiteral => opConst
  | .unrecognized => w

theorem value_opcodeOf (w : Word) : (opcodeOf w).value w = w := by
  rcases opcodeOf_cases w with ⟨rfl, -⟩ | ⟨rfl, -⟩ | ⟨rfl, -⟩ | ⟨rfl, -⟩ | ⟨rfl, -⟩ | ⟨rfl, -⟩ | ⟨rfl, -⟩ | ⟨rfl, -⟩ |
    ⟨rfl, -⟩ | ⟨rfl, -⟩ | ⟨rfl, -⟩ | ⟨rfl, -⟩ | ⟨rfl, -⟩ | ⟨-, hop⟩
  any_goals rfl
  rw [hop, Opcode.value]

/-- What a scan takes, its delimiter included, and what it leaves are the words it was given. -/
theorem scan_taken_append_rest (d : Word) (ws : List Word) :
    (scan d ws).payload ++ closing d (scan d ws).closed ++ (scan d ws).rest = ws := by
  obtain ⟨-, hwords, -⟩ := scan_spec d ws
  rw [List.append_assoc, hwords]

/-- The words of a decoded instruction are the fetched word, its operands and, for a block, what the scan took of the words
after the operands; the others are left over (R71, R72). -/
theorem encode_decodeWord (w : Word) (ws : List Word) :
    ∃ block, encode (decodeWord w ws).1 = w :: (operands (opcodeOf w).operandCount ws ++ block) ∧
      block ++ (decodeWord w ws).2 = ws.drop (opcodeOf w).operandCount := by
  suffices h : ∃ block,
      encode (decodeWord w ws).1 = (opcodeOf w).value w :: (operands (opcodeOf w).operandCount ws ++ block) ∧
      block ++ (decodeWord w ws).2 = ws.drop (opcodeOf w).operandCount by rwa [value_opcodeOf] at h
  unfold decodeWord
  cases opcodeOf w with
  | functionDeclare => exact ⟨_, rfl, scan_taken_append_rest opFunc (ws.drop 1)⟩
  | constantLiteral => exact ⟨_, rfl, scan_taken_append_rest opConst ws⟩
  | _ => exact ⟨[], rfl, rfl⟩

/-- Only a word that is no opcode value decodes to an unrecognized instruction (R76). -/
theorem isUnrecognized_of_decodeWord {w u : Word} {ws : List Word} (h : (decodeWord w ws).1 = .unrecognized u) :
    isUnrecognized w = true := by
  have hop : opcodeOf w = .unrecognized := by
    unfold decodeWord at h
    cases hop : opcodeOf w with
    | unrecognized => rfl
    | _ => simp [hop] at h
  simpa [hop] using opcodeOf_cases w

theorem isUnrecognized_iff (w : Word) :
    isUnrecognized w = true ↔ w ∉ ([0, 1, 2, 3, 4, 5, 6, 7, 8, 9, 16, 17, 21] : List Word) := by
  have htable : ([0, 1, 2, 3, 4, 5, 6, 7, 8, 9, 16, 17, 21] : List Word) = opcodeTable.map Prod.fst := rfl
  simp only [isUnrecognized, htable, List.all_eq_true, decide_eq_true_eq, List.mem_map, not_exists, not_and]
  exact forall₂_congr fun row _ => ne_comm

/-! ## What is decoded is well-formed -/

theorem inRange_zero (W : Nat) : inRange W 0 = true := by
  have hpos : (1 : Int) ≤ ((2 ^ (W - 1) : Nat) : Int) := by exact_mod_cast Nat.one_le_two_pow
  have hmin : wordMin W ≤ 0 := by
    unfold wordMin
    exact Int.neg_nonpos_of_nonneg (zero_le_one.trans hpos)
  have hmax : 0 ≤ wordMax W := by
    unfold wordMax
    exact Int.sub_nonneg_of_le hpos
  simp [inRange, hmin, hmax]

/-- An operand is a word of memory or the sentinel, so a W-bit word. -/
theorem opnd_inRange {W : Nat} {ws : List Word} (h : ∀ w ∈ ws, inRange W w = true) (n : Nat) :
    inRange W (opnd ws n) = true := by
  rw [opnd, List.getD_eq_getElem?_getD]
  cases hw : ws[n - 1]? with
  | none => exact inRange_zero W
  | some w => exact h w (List.mem_of_getElem? hw)

/-- A scan of W-bit words captures a legal payload (30_encoding.md R78). -/
theorem scan_payload_wf {W : Nat} {ws : List Word} (d : Word) (h : ∀ w ∈ ws, inRange W w = true) :
    (scan d ws).payload.all (payloadWord W d) = true := by
  obtain ⟨hne, hws, -⟩ := scan_spec d ws
  refine List.all_eq_true.mpr fun w hw => ?_
  have hmem : w ∈ ws := by
    rw [← hws]
    exact List.mem_append_left _ hw
  simp [payloadWord, h w hmem, hne w hw]

/-- A decoded instruction fits the words it was decoded from, or its operands alone pass their end. -/
theorem encode_decodeWord_length_le (w : Word) (ws : List Word) :
    (encode (decodeWord w ws).1).length ≤ max (ws.length + 1) 4 := by
  obtain ⟨block, henc, hrest⟩ := encode_decodeWord w ws
  have hblock := congrArg List.length hrest
  have hcount := (opcodeOf w).operandCount_le
  simp only [List.length_append, List.length_drop] at hblock
  simp only [henc, List.length_cons, List.length_append, operands_length]
  omega

/-- What is fetched from at most a memory's worth of W-bit words is well-formed (30_encoding.md R70 to R78). -/
theorem decodeWord_wf {W : Nat} {w : Word} {ws : List Word} (hw : inRange W w = true)
    (hws : ∀ u ∈ ws, inRange W u = true) (hlen : ws.length < memCap) : (decodeWord w ws).1.wf W = true := by
  have hopnd : ∀ n, inRange W (opnd ws n) = true := opnd_inRange hws
  have hfit : (encode (decodeWord w ws).1).length ≤ memCap := by
    have hle := encode_decodeWord_length_le w ws
    unfold memCap at *
    omega
  have hun : ∀ u, (decodeWord w ws).1 = .unrecognized u → isUnrecognized w = true := fun _ => isUnrecognized_of_decodeWord
  revert hfit hun
  unfold decodeWord
  cases opcodeOf w with
  | functionDeclare =>
    intro hfit _
    have hbody := scan_payload_wf opFunc fun u hu => hws u (List.mem_of_mem_drop (i := 1) hu)
    rw [(Laws.Encoding.functionDeclare ..).1] at hfit
    exact Bool.and_eq_true_iff.mpr ⟨Bool.and_eq_true_iff.mpr ⟨hopnd 1, hbody⟩, decide_eq_true hfit⟩
  | constantLiteral =>
    intro hfit _
    rw [(Laws.Encoding.constantLiteral ..).1] at hfit
    exact Bool.and_eq_true_iff.mpr ⟨scan_payload_wf opConst hws, decide_eq_true hfit⟩
  | unrecognized => exact fun _ hun => Bool.and_eq_true_iff.mpr ⟨hw, hun w rfl⟩
  | _ => exact fun _ _ => by simp [Instr.wf, hopnd]

end Sys2Proof

open Sys2Proof

/-- Settles O1: an instruction whose end its own words show is read back before any words, and a block without its delimiter
at the end. -/
theorem decodeOfEncodeIsTheInstruction : Obligations.DecodeOfEncodeIsTheInstruction := by
  intro W i hi
  refine ⟨?_, fun hd rest => decode_encode_append hi hd rest⟩
  cases hd : i.selfDelimited with
  | true => simpa using decode_encode_append hi hd []
  | false => exact decode_encode_open hi hd

/-- Settles O2: the decoded words are the opcode, its operands, the block and the rest, and the operands beyond the end are
zeros. -/
theorem encodeOfDecodeIsTheWords : Obligations.EncodeOfDecodeIsTheWords := by
  intro ws i rest h
  cases ws with
  | nil => simp [decode] at h
  | cons w ws =>
    obtain ⟨rfl, rfl⟩ : (decodeWord w ws).1 = i ∧ (decodeWord w ws).2 = rest := by simpa [decode, Prod.ext_iff] using h
    obtain ⟨block, henc, hrest⟩ := encode_decodeWord w ws
    refine ⟨(opcodeOf w).operandCount - ws.length, (Nat.sub_le ..).trans (Opcode.operandCount_le _), ?_, fun hle => ?_⟩
    · rw [henc, List.cons_append, List.append_assoc, hrest, operands_append_drop, List.cons_append]
    · simp only [henc, List.length_cons, List.length_append, operands_length] at hle
      omega

/-- Settles O3, by the same for the fetched word and the words after it. -/
theorem decodedInstructionIsWellFormed : Obligations.DecodedInstructionIsWellFormed := by
  intro W ws i rest hrange hlen h
  cases ws with
  | nil => simp [decode] at h
  | cons w ws =>
    obtain ⟨rfl, -⟩ : (decodeWord w ws).1 = i ∧ (decodeWord w ws).2 = rest := by simpa [decode, Prod.ext_iff] using h
    obtain ⟨hw, hws⟩ := List.forall_mem_cons.mp hrange
    exact decodeWord_wf hw hws hlen

/-- Settles O4: the thirteen values are the opcode table's, and a decoded instruction begins with the word fetched. -/
theorem everyWordDecodes : Obligations.EveryWordDecodes := by
  intro w ws
  refine ⟨fun hw => decode_of_unrecognized ((isUnrecognized_iff w).mpr hw) ws, fun hw => ?_⟩
  obtain ⟨block, henc, -⟩ := encode_decodeWord w ws
  refine ⟨(decodeWord w ws).1, (decodeWord w ws).2, rfl, by rw [henc, List.head?_cons], fun u hu => ?_⟩
  exact (isUnrecognized_iff w).mp (isUnrecognized_of_decodeWord hu) hw

/-- Settles O5: the decoder evaluates on each of the nine lists. -/
theorem writtenWordsDecode : Obligations.WrittenWordsDecode :=
  ⟨rfl, rfl, rfl, rfl, rfl, rfl, rfl, rfl, rfl⟩

end

section
/-! SUPPORT. Legal frames and legal states: what keeps each part of the invariant, one lemma per operation, and then every
effect of an instruction, the end of a frame and the host's operations. Settles O33, O34 and O32 (10_state.md). -/

namespace Sys2Proof

theorem inRange_iff {W : Nat} {w : Word} : inRange W w = true ↔ wordMin W ≤ w ∧ w ≤ wordMax W := by
  simp [inRange]

/-- A payload without its delimiter is made of W-bit words. -/
theorem payload_inRange {W : Nat} {d : Word} {l : List Word} (h : l.all (payloadWord W d) = true) :
    ∀ w ∈ l, inRange W w = true :=
  fun w hw => (Bool.and_eq_true_iff.mp (List.all_eq_true.mp h w hw)).1

namespace Machine

/-! ## Arrays of W-bit words -/

theorem cells_inRange_iff {W : Nat} {c : Cells} : c.inRange W = true ↔ ∀ e ∈ c, Sys2Proof.inRange W e.2 = true :=
  List.all_eq_true

theorem mem_insert (c : Cells) (a : Nat) (v : Word) : ∀ e ∈ c.insert a v, e = (a, v) ∨ e ∈ c := by
  induction c with
  | nil => simp [Cells.insert]
  | cons e rest ih =>
    intro e' he'
    simp only [Cells.insert] at he'
    split at he'
    · exact List.mem_cons.mp he'
    · rcases List.mem_cons.mp he' with rfl | he'
      · exact .inr (List.mem_cons_self ..)
      · exact (ih e' he').imp id (List.mem_cons_of_mem _)

theorem mem_of_mem_erase {c : Cells} {a : Nat} {e : Nat × Word} (h : e ∈ c.erase a) : e ∈ c := (List.mem_filter.mp h).1

theorem set_inRange {W : Nat} {c : Cells} (a : Nat) {v : Word} (hc : c.inRange W = true)
    (hv : Sys2Proof.inRange W v = true) : (c.set a v).inRange W = true := by
  rw [cells_inRange_iff] at hc ⊢
  intro e he
  unfold Cells.set at he
  split at he
  · exact hc e (mem_of_mem_erase he)
  · rcases mem_insert _ a v e he with rfl | he
    · exact hv
    · exact hc e (mem_of_mem_erase he)

theorem get_inRange {W : Nat} {c : Cells} (hc : c.inRange W = true) (a : Nat) :
    Sys2Proof.inRange W (c.get a) = true := by
  induction c with
  | nil => exact inRange_zero W
  | cons e rest ih =>
    obtain ⟨hv, hrest⟩ := List.forall_mem_cons.mp (cells_inRange_iff.mp hc)
    simp only [Cells.get]
    split
    · exact hv
    · exact ih (cells_inRange_iff.mpr hrest)

theorem load_inRange {W : Nat} {m : Memory} (a : Nat) {ws : List Word} (hm : Cells.inRange W m = true)
    (hws : ∀ w ∈ ws, Sys2Proof.inRange W w = true) : Cells.inRange W (m.load a ws) = true := by
  induction ws generalizing m a with
  | nil => exact hm
  | cons w ws ih =>
    obtain ⟨hw, hws⟩ := List.forall_mem_cons.mp hws
    simp only [Memory.load]
    split
    · exact ih _ (set_inRange a hm hw) hws
    · exact hm

theorem mem_of_body {t : FunTable} {name : Str} {b : List Word} (h : t.body name = some b) : (name, b) ∈ t := by
  induction t with
  | nil => simp [FunTable.body] at h
  | cons e rest ih =>
    simp only [FunTable.body] at h
    split at h
    · obtain rfl := Option.some.inj h
      obtain rfl := ‹e.1 = name›
      exact List.mem_cons_self ..
    · exact List.mem_cons_of_mem _ (ih h)

/-! ## The results of the ALU -/

theorem overflowCheck_inRange {p : Params} {x r : Word} (h : overflowCheck p x = .value r) :
    Sys2Proof.inRange p.wordBits r = true := by
  rcases overflowCheck_cases p x with ⟨hin, hv⟩ | ⟨-, -, hv⟩ | ⟨-, -, hv⟩
  · obtain rfl : x = r := by simpa [hv] using h
    exact hin
  · simp [hv] at h
  · obtain rfl : wrapWord p.wordBits x = r := by simpa [hv] using h
    obtain ⟨hlo, hhi, -⟩ := wrapWord_spec p.wordBits x
    exact inRange_iff.mpr ⟨hlo, hhi⟩

/-- Only WMIN / -1 has a quotient outside the word range (43_alu.md R153). -/
theorem tdiv_inRange {W : Nat} {x y : Word} (hx : Sys2Proof.inRange W x = true) (hne : ¬(x = wordMin W ∧ y = -1)) :
    Sys2Proof.inRange W (Int.tdiv x y) = true := by
  have hB : 1 ≤ 2 ^ (W - 1) := Nat.one_le_two_pow
  have habs : (Int.tdiv x y).natAbs = x.natAbs / y.natAbs := Int.natAbs_tdiv x y
  rw [inRange_iff] at hx ⊢
  unfold wordMin wordMax at *
  unfold Word at *
  generalize 2 ^ (W - 1) = B at *
  by_cases h1 : y = 1
  · simpa [h1] using hx
  by_cases h2 : y = -1
  · simp only [h2, Int.tdiv_neg, Int.tdiv_one]
    omega
  by_cases h0 : y = 0
  · simp only [h0, Int.tdiv_zero]
    omega
  have hhalf : x.natAbs / y.natAbs ≤ x.natAbs / 2 := Nat.div_le_div_left (by omega) (by omega)
  omega

/-- Every value an arithmetic instruction writes is a W-bit word (00_scope.md R8). -/
theorem alu_inRange {op : Params → Word → Word → AluResult} {i : Instr} {a b : Word} {p : Params} {x y r : Word}
    (hi : (i = .add a b ∧ op = aluAdd) ∨ (i = .sub a b ∧ op = aluSub) ∨ (i = .mul a b ∧ op = aluMul) ∨
      (i = .div a b ∧ op = aluDiv))
    (hx : Sys2Proof.inRange p.wordBits x = true) (h : op p x y = .value r) : Sys2Proof.inRange p.wordBits r = true := by
  rcases hi with ⟨-, rfl⟩ | ⟨-, rfl⟩ | ⟨-, rfl⟩ | ⟨-, rfl⟩
  case inr.inr.inr =>
    unfold aluDiv at h
    split_ifs at h with h0 hmin
    obtain rfl := AluResult.value.inj h
    exact tdiv_inRange hx hmin
  all_goals exact overflowCheck_inRange h

/-! ## Legal frames -/

/-- What `Frame.wf` checks (10_state.md R21 to R28). -/
structure LegalFrame (W : Nat) (f : Frame) : Prop where
  mem : Memory.wf f.mem = true
  memRange : Cells.inRange W f.mem = true
  regs : RegFile.wf f.regs = true
  regsRange : Cells.inRange W f.regs = true
  consts : ∀ c ∈ f.consts, constWf W c = true
  funs : FunTable.wf f.funs = true
  bodies : ∀ e ∈ f.funs, constWf W e.1 = true ∧ bodyWf W e.2 = true
  pc : f.pc ≤ memCap

theorem frame_wf_iff {W : Nat} {f : Frame} : f.wf W = true ↔ LegalFrame W f := by
  simp only [Frame.wf, Bool.and_eq_true, List.all_eq_true, decide_eq_true_eq, and_assoc]
  exact ⟨fun ⟨hm, hmr, hr, hrr, hc, hf, hb, hp⟩ => ⟨hm, hmr, hr, hrr, hc, hf, hb, hp⟩,
    fun ⟨hm, hmr, hr, hrr, hc, hf, hb, hp⟩ => ⟨hm, hmr, hr, hrr, hc, hf, hb, hp⟩⟩

section
variable {W : Nat} {f : Frame}

theorem legalFrame_new (W : Nat) : LegalFrame W Frame.new :=
  ⟨rfl, rfl, rfl, rfl, by simp [Frame.new], rfl, by simp [Frame.new], Nat.zero_le _⟩

theorem LegalFrame.withPc (h : LegalFrame W f) {a : Nat} (ha : a ≤ memCap) : LegalFrame W { f with pc := a } :=
  { h with pc := ha }

theorem LegalFrame.writeReg (h : LegalFrame W f) {i : Nat} {v : Word} (hi : i < regCap) (hv : inRange W v = true) :
    LegalFrame W { f with regs := Cells.set f.regs i v } :=
  { h with regs := set_wf f.regs v hi h.regs, regsRange := set_inRange i h.regsRange hv }

theorem LegalFrame.appendConst (h : LegalFrame W f) {str : Str} (hstr : constWf W str = true) :
    LegalFrame W { f with consts := f.consts ++ [str] } :=
  { h with consts := List.forall_mem_append.mpr ⟨h.consts, List.forall_mem_singleton.mpr hstr⟩ }

theorem LegalFrame.bindFun (h : LegalFrame W f) {name : Str} {body : List Word} (hname : name ∈ f.consts)
    (hbody : bodyWf W body = true) : LegalFrame W { f with funs := f.funs.bind name body } :=
  { h with
    funs := bind_wf f.funs name body h.funs
    bodies := fun e he => (mem_bind f.funs name body e he).elim (fun heq => heq ▸ ⟨h.consts name hname, hbody⟩) (h.bodies e) }

theorem LegalFrame.load (h : LegalFrame W f) {ws : List Word} (hws : ∀ w ∈ ws, inRange W w = true) :
    LegalFrame W { f with mem := f.mem.load 0 ws } :=
  { h with mem := load_wf f.mem 0 ws h.mem, memRange := load_inRange 0 h.memRange hws }

theorem LegalFrame.child (h : LegalFrame W f) {name : Str} {body : List Word} (hb : f.funs.body name = some body) :
    LegalFrame W (f.child body) := by
  have hbody := (h.bodies _ (mem_of_body hb)).2
  have hrange : ∀ w ∈ body, inRange W w = true := payload_inRange (Bool.and_eq_true_iff.mp hbody).1
  exact { h with mem := load_wf [] 0 body rfl, memRange := load_inRange 0 rfl hrange, pc := Nat.zero_le _ }

/-- The words of a legal frame's memory are W-bit words, so what it fetches is well-formed. -/
theorem LegalFrame.fetch_wf (h : LegalFrame W f) (hp : f.pc < memCap) : f.fetch.wf W = true := by
  refine decodeWord_wf (get_inRange h.memRange _) (forall_mem_window fun l _ _ => get_inRange h.memRange l) ?_
  rw [Frame.following, window_length]
  unfold memCap at *
  omega

end

/-! ## Legal states -/

/-- What `State.Inv` says, its frames taken from the context stack. -/
structure Legal (s : State) : Prop where
  params : s.params.ok = true
  frames : ∀ f ∈ s.stack, LegalFrame s.params.wordBits f
  depth : s.depth ≤ s.params.maxCallDepth
  status : s.statusWf = true

theorem forall_mem_stack {s : State} {p : Frame → Prop} : (∀ f ∈ s.stack, p f) ↔ p s.active ∧ ∀ f ∈ s.parents, p f := by
  simp [State.stack, and_comm, or_imp, forall_and]

theorem Legal.active {s : State} (h : Legal s) : LegalFrame s.params.wordBits s.active := (forall_mem_stack.mp h.frames).1

theorem Legal.parents {s : State} (h : Legal s) : ∀ f ∈ s.parents, LegalFrame s.params.wordBits f :=
  (forall_mem_stack.mp h.frames).2

theorem inv_iff {s : State} : s.Inv ↔ Legal s := by
  simp only [State.Inv, State.wf, Bool.and_eq_true, List.all_eq_true, decide_eq_true_eq, frame_wf_iff, and_assoc]
  exact ⟨fun ⟨hp, ha, hf, hd, hs⟩ => ⟨hp, forall_mem_stack.mpr ⟨ha, hf⟩, hd, hs⟩,
    fun h => ⟨h.params, h.active, h.parents, h.depth, h.status⟩⟩

theorem statusWf_running {s : State} (h : s.status = .running) : s.statusWf = true := by simp [State.statusWf, h]

theorem statusWf_fault {s : State} (kind : FaultKind) (value : Word) (hp : s.active.pc < memCap) :
    (s.fault kind value).statusWf = true := by
  simp [State.statusWf, State.depth, hp]

theorem statusWf_halted {s : State} (h : s.status = .halted) (hd : s.parents = []) (hp : s.active.pc = memCap) :
    s.statusWf = true := by
  simp [State.statusWf, h, hd, hp]

/-- The status is judged by the depth and the active frame's pc alone. -/
theorem statusWf_congr {s t : State} (hs : t.status = s.status) (hd : t.depth = s.depth)
    (hp : t.active.pc = s.active.pc) : t.statusWf = s.statusWf := by
  have hnil : t.parents = [] ↔ s.parents = [] := by
    rw [← List.length_eq_zero_iff, ← List.length_eq_zero_iff, Nat.succ.inj hd]
  simp only [State.statusWf, hs, hd, hp, hnil]

/-- A Running state with the same parameters and callers and a legal active frame is legal. -/
theorem Legal.of_active {s t : State} (h : Legal s) (hp : t.params = s.params) (hf : t.parents = s.parents)
    (hs : t.status = .running) (ha : LegalFrame s.params.wordBits t.active) : Legal t where
  params := hp ▸ h.params
  frames := by
    rw [hp, forall_mem_stack, hf]
    exact ⟨ha, h.parents⟩
  depth := by simpa [State.depth, hp, hf] using h.depth
  status := statusWf_running hs

theorem legalFrame_endBlock {W : Nat} {s : State} (which : BlockKind) (len : Nat) (closed : Bool)
    (h : LegalFrame W s.active) : LegalFrame W (s.endBlock which len closed).active := by
  cases closed with
  | true => exact h.withPc (Nat.min_le_right ..)
  | false => exact h.withPc (le_refl _)

@[simp] theorem endBlock_params (s : State) (which : BlockKind) (len : Nat) (closed : Bool) :
    (s.endBlock which len closed).params = s.params := by
  cases closed <;> rfl

theorem toNat_lt_regCap {i : Word} (h0 : 0 ≤ i) (h1 : i < (regCap : Int)) : i.toNat < regCap := by
  unfold Word at *
  omega

/-- Every effect of a well-formed instruction keeps a Running state legal. -/
theorem Effect.legal {s t : State} {i : Instr} (h : Effect s i t) (hs : Legal s) (hrun : s.status = .running)
    (hp : s.active.pc < memCap) (hi : i.wf s.params.wordBits = true) : Legal t := by
  have hactive := hs.active
  cases h with
  | fault _ kind value => exact ⟨hs.params, hs.frames, hs.depth, statusWf_fault kind value hp⟩
  | push v j h0 h1 =>
    have hv := (Bool.and_eq_true_iff.mp hi).1
    exact hs.of_active rfl rfl hrun ((hactive.writeReg (toNat_lt_regCap h0 h1) hv).withPc (Nat.min_le_right ..))
  | arithmetic _ a b r op hop ha0 ha1 hb0 hb1 hr =>
    have hv := alu_inRange hop (get_inRange hactive.regsRange _) hr
    have hregs := (hactive.writeReg (toNat_lt_regCap ha0 ha1) hv).writeReg (toNat_lt_regCap hb0 hb1) (inRange_zero _)
    exact hs.of_active rfl rfl hrun (hregs.withPc (Nat.min_le_right ..))
  | functionDeclare k body closed name hn =>
    simp only [Instr.wf, Bool.and_eq_true, decide_eq_true_eq] at hi
    obtain ⟨⟨-, hwords⟩, hlen⟩ := hi
    have hbody : bodyWf s.params.wordBits body = true := by
      have : body.length + 2 ≤ memCap := le_trans (by split <;> omega) hlen
      simp [bodyWf, hwords, this]
    have hframe := hactive.bindFun (List.mem_of_getElem? hn) hbody
    exact hs.of_active (by simp) (by simp) (by simpa using hrun) (legalFrame_endBlock _ _ closed hframe)
  | functionCall k name body hn hb hd =>
    refine ⟨hs.params, ?_, lt_of_le_of_ne hs.depth hd, statusWf_running hrun⟩
    exact forall_mem_stack.mpr ⟨hactive.child hb, List.forall_mem_cons.mpr ⟨hactive.withPc (Nat.min_le_right ..), hs.parents⟩⟩
  | constantLiteral codes closed =>
    simp only [Instr.wf, Bool.and_eq_true, decide_eq_true_eq] at hi
    have hcodes : constWf s.params.wordBits codes = true := by
      have : codes.length + 1 ≤ memCap := le_trans (by split <;> omega) hi.2
      simp [constWf, hi.1, this]
    have hframe := hactive.appendConst hcodes
    exact hs.of_active (by simp) (by simp) (by simpa using hrun) (legalFrame_endBlock _ _ closed hframe)
  | _ => exact hs.of_active rfl rfl hrun (hactive.withPc (Nat.min_le_right ..))

/-- The end of a frame keeps a Running state legal: halted, its top-level frame is at MEM_CAP. -/
theorem endFrame_legal {s : State} (hs : Legal s) (hrun : s.status = .running) (hp : memCap ≤ s.active.pc) :
    Legal (endFrame s) := by
  have hpc : s.active.pc = memCap := le_antisymm hs.active.pc hp
  cases hd : s.parents with
  | nil =>
    rw [endFrame_top hd]
    exact ⟨hs.params, hs.frames, hs.depth, statusWf_halted rfl hd hpc⟩
  | cons caller below =>
    have hframes := fun f hf => hs.frames f ((endFrame_stack_prefix s).subset hf)
    have hdepth : below.length + 1 ≤ s.depth := by simp [State.depth, hd]
    rw [endFrame_child hd] at hframes ⊢
    exact ⟨hs.params, hframes, hdepth.trans hs.depth, statusWf_running hrun⟩

theorem step_legal {s t : State} (hs : Legal s) (h : step s = .next t) : Legal t := by
  obtain ⟨hrun, ⟨hp, rfl⟩ | ⟨hp, -, he⟩⟩ := step_cases h
  · exact endFrame_legal hs hrun hp
  · exact he.legal hs hrun hp (hs.active.fetch_wf hp)

/-! ## The host's operations -/

theorem new_legal {p : Params} (h : p.ok = true) : Legal (State.new p) where
  params := h
  frames := forall_mem_stack.mpr ⟨legalFrame_new _, List.forall_mem_nil _⟩
  depth := by
    simp only [Params.ok, Bool.and_eq_true, decide_eq_true_eq] at h
    exact h.2
  status := rfl

@[simp] theorem changeTopLevel_params (g : Frame → Frame) (s : State) : (s.changeTopLevel g).params = s.params := by
  cases hp : s.parents <;> simp [State.changeTopLevel, hp]

@[simp] theorem changeTopLevel_status (g : Frame → Frame) (s : State) : (s.changeTopLevel g).status = s.status := by
  cases hp : s.parents <;> simp [State.changeTopLevel, hp]

@[simp] theorem changeTopLevel_out (g : Frame → Frame) (s : State) : (s.changeTopLevel g).out = s.out := by
  cases hp : s.parents <;> simp [State.changeTopLevel, hp]

@[simp] theorem changeTopLevel_depth (g : Frame → Frame) (s : State) : (s.changeTopLevel g).depth = s.depth := by
  rw [← stack_length, changeTopLevel_stack, List.length_modifyHead, stack_length]

theorem changeTopLevel_pc {g : Frame → Frame} (hg : ∀ f, (g f).pc = f.pc) (s : State) :
    (s.changeTopLevel g).active.pc = s.active.pc := by
  cases hp : s.parents <;> simp [State.changeTopLevel, hp, hg]

/-- A change of the top-level frame that keeps it legal and its pc keeps the state legal. -/
theorem Legal.changeTopLevel {s : State} (h : Legal s) {g : Frame → Frame} (hpc : ∀ f, (g f).pc = f.pc)
    (hg : ∀ f, LegalFrame s.params.wordBits f → LegalFrame s.params.wordBits (g f)) : Legal (s.changeTopLevel g) where
  params := by simpa using h.params
  frames := by
    rw [changeTopLevel_params, changeTopLevel_stack]
    have hframes := h.frames
    cases hs : s.stack with
    | nil => simp
    | cons f fs =>
      rw [hs] at hframes
      obtain ⟨hf, hfs⟩ := List.forall_mem_cons.mp hframes
      exact List.forall_mem_cons.mpr ⟨hg f hf, hfs⟩
  depth := by simpa using h.depth
  status := (statusWf_congr (changeTopLevel_status g s) (changeTopLevel_depth g s) (changeTopLevel_pc hpc s)).trans h.status

end Machine

end Sys2Proof

open Sys2Proof Sys2Proof.Machine

/-- Settles O33: the end of a frame and every effect of a fetched, so well-formed, instruction keep a state legal. -/
theorem stepKeepsTheInvariant : Obligations.StepKeepsTheInvariant :=
  fun _ _ hs h => inv_iff.mpr (step_legal (inv_iff.mp hs) h)

/-- Settles O34: `load` changes the top-level frame's memory, the beginning of `run` the status, and `new` starts afresh. -/
theorem hostOperationsKeepTheInvariant : Obligations.HostOperationsKeepTheInvariant := by
  intro s t hinv
  have hs := inv_iff.mp hinv
  refine ⟨fun words hwords h => ?load, fun h => ?start, fun h => ?new⟩ <;> rw [inv_iff]
  case load =>
    obtain ⟨-, rfl⟩ := hostLoad_next.mp h
    exact hs.changeTopLevel (fun _ => rfl) fun f hf => hf.load hwords
  case start =>
    obtain ⟨-, rfl⟩ := hostStart_next.mp h
    exact ⟨hs.params, hs.frames, hs.depth, rfl⟩
  case new =>
    obtain ⟨-, rfl⟩ := hostNew_next.mp h
    exact new_legal hs.params

/-- Settles O32: a new block is legal for all legal parameters, those of the reset state among them. -/
theorem newBlockIsLegal : Obligations.NewBlockIsLegal :=
  ⟨fun _ hp => inv_iff.mpr (new_legal hp), inv_iff.mpr (new_legal (by decide))⟩

end

section
/-! SUPPORT. What a step fetches and runs: the fetched word selects the instruction, the end of a frame, and the instruction
the host places. Settles O8, O9, O10 and O55 (40_fetch_dispatch.md R100 to R102). -/

namespace Sys2Proof.Machine

/-! ## The fetched instruction -/

/-- What the decoder reads from a frame's pc is what the frame fetches. -/
theorem fetch_of_decode {f : Frame} {i : Instr} {rest : List Word} (hp : f.pc < memCap)
    (h : decode f.toEnd = .ok (i, rest)) : f.fetch = i := by
  obtain ⟨rest', h'⟩ := decode_toEnd f hp
  rw [h, Except.ok.injEq, Prod.mk.injEq] at h'
  exact h'.1.symm

/-- Dispatch on the fetched word (R101). -/
theorem step_of_word {s : State} {w : Word} (hs : s.status = .running) (hp : s.active.pc < memCap)
    (hw : s.readMem s.active.pc = w) : step s = exec (decodeWord w s.active.following).1 s := by
  rw [step_eq_exec hs hp, Frame.fetch, ← hw, State.readMem]

/-- The words a function body's scan begins at, after the opcode and the constant-index (44_block_parsers.md R181). -/
theorem following_drop_one (f : Frame) : f.following.drop 1 = f.mem.window (f.pc + 2) (memCap - (f.pc + 2)) := by
  rw [Frame.following, window_drop, Nat.sub_sub]

/-! ## The end of a frame -/

theorem step_of_end {s : State} (hs : s.status = .running) (hp : memCap ≤ s.active.pc) :
    step s = .next (endFrame s) := by
  simp [step, hs, hp]

theorem parents_eq_nil_of_depth {s : State} (h : s.depth = 1) : s.parents = [] :=
  List.length_eq_zero_iff.mp (Nat.succ.inj h)

/-! ## The instruction the host places -/

/-- Words loaded at index 0 of an empty memory, read back up to its end. -/
theorem window_load (ws : List Word) (h : ws.length ≤ memCap) :
    Memory.window (Memory.load [] 0 ws) 0 memCap = ws ++ List.replicate (memCap - ws.length) 0 := by
  refine List.ext_getElem (by simp [h]) fun a ha _ => ?_
  have hcap : a < memCap := by simpa using ha
  have hword := window_getD (Memory.load [] 0 ws) 0 memCap a
  rw [List.getD_eq_getElem _ _ ha, if_pos hcap, Nat.zero_add, get_load [] 0 ws (Nat.zero_le a) hcap] at hword
  rw [hword, List.getElem_append]
  by_cases hlt : a < ws.length
  · simp [hlt]
  · simp [hlt]

end Sys2Proof.Machine

open Sys2Proof Sys2Proof.Machine

/-- Settles O8: the fetched instruction is the decoded one. -/
theorem stepRunsTheDecodedInstruction : Obligations.StepRunsTheDecodedInstruction :=
  fun _ _ _ hs hp h => fetch_of_decode hp h ▸ step_eq_exec hs hp

/-- Settles O9: each opcode value's dispatch, with the operands read from the words that follow it. -/
theorem stepDispatchesOnTheFetchedWord : Obligations.StepDispatchesOnTheFetchedWord := by
  intro s o hs hp ho
  have hopnd : ∀ k, 1 ≤ k → o k = opnd s.active.following k := fun k hk => by
    rw [ho, opnd_following _ hk]
    rfl
  have hrun := fun w hw => step_of_word (w := w) hs hp hw
  rw [hopnd 1 (by decide), hopnd 2 (by decide), hopnd 3 (by decide), ← following_drop_one]
  refine ⟨hrun 0, hrun 1, hrun 2, hrun 3, hrun 4, hrun 5, hrun 6, hrun 7, hrun 8, fun h => ⟨_, rfl, hrun 9 h⟩, hrun 16,
    hrun 17, fun h => ⟨_, rfl, hrun 21 h⟩, fun h => ?_⟩
  have hun := (isUnrecognized_iff _).mpr h
  rw [hrun _ rfl, decodeWord, opcodeOf_unrecognized hun]

/-- Settles O10: at depth 1 no caller lies below, deeper the nearest one becomes active. -/
theorem stepAtTheEndOfAFrame : Obligations.StepAtTheEndOfAFrame := by
  intro s hs hp
  rw [step_of_end hs hp]
  exact ⟨fun hd => by rw [endFrame_top (parents_eq_nil_of_depth hd)], fun caller below h => by rw [endFrame_child h]⟩

/-- Settles O55: the memory with the placed words reads, from index 0 to its end, as the image that was decoded. -/
theorem placedWordIsRun : Obligations.PlacedWordIsRun := by
  intro s nbits w i h
  unfold decodeTableWord at h
  split_ifs at h with hlen
  have himage : (s.withFetchWord nbits w).active.toEnd = tableImage nbits w := window_load (tableWords nbits w) hlen
  have hp : (s.withFetchWord nbits w).active.pc < memCap := (by decide : 0 < memCap)
  obtain ⟨rest, hdec⟩ := decode_toEnd (s.withFetchWord nbits w).active hp
  rw [← himage, hdec, Option.some.injEq] at h
  exact h ▸ step_eq_exec rfl hp

end

section
/-! SUPPORT. Instructions that emit, jump or take a block: the answer of each check, and what is left as it was. Settles O14,
O16, O17, O24 to O29 (40_fetch_dispatch.md, 42_control_transfer.md, 44_block_parsers.md, 45_output.md). -/

namespace Sys2Proof.Machine

/-! ## Jumps -/

theorem jumpTo_nonneg {t : Word} (s : State) (h : 0 ≤ t) : jumpTo t s = .next (s.setPc (min t.toNat memCap)) := by
  rcases jumpTo_eq t s with ⟨hneg, -⟩ | ⟨-, heq⟩
  · exact absurd h (Int.not_le.mpr hneg)
  · exact heq

theorem jumpTo_neg {t : Word} (s : State) (h : t < 0) : jumpTo t s = .next (s.fault .memoryOverrun t) := by
  rcases jumpTo_eq t s with ⟨-, heq⟩ | ⟨hnonneg, -⟩
  · exact heq
  · exact absurd h (Int.not_lt.mpr hnonneg)

theorem jumps_setPc (n : Nat) (s : State) : jumps n s (s.setPc (min n memCap)) :=
  ⟨rfl, fun _ _ => rfl, fun _ => rfl, rfl, fun _ _ => rfl, rfl, rfl, rfl, rfl⟩

theorem exec_jump (t : Word) (s : State) : exec (.jump t) s = jumpTo t s := rfl

theorem aluEqual_iff {p q : Word} : aluEqual p q = true ↔ p = q := decide_eq_true_iff

theorem exec_jumpIfEqual (t i v : Word) (s : State) : exec (.jumpIfEqual t i v) s =
    withReg i s (fun r => if aluEqual (s.readReg r) v then jumpTo t s else .next (s.adv 3)) := rfl

theorem exec_jumpIfEqual_taken {t i v : Word} {s : State} (h0 : 0 ≤ i) (h1 : i < (regCap : Int))
    (h : s.readReg i.toNat = v) : exec (.jumpIfEqual t i v) s = jumpTo t s := by
  rw [exec_jumpIfEqual, withReg_valid h0 h1, if_pos (aluEqual_iff.mpr h)]

theorem exec_jumpIfEqual_notTaken {t i v : Word} {s : State} (h0 : 0 ≤ i) (h1 : i < (regCap : Int))
    (h : s.readReg i.toNat ≠ v) : exec (.jumpIfEqual t i v) s = .next (s.adv 3) := by
  rw [exec_jumpIfEqual, withReg_valid h0 h1, if_neg fun he => h (aluEqual_iff.mp he)]

/-! ## Output -/

/-- An event emitted, and the pc past the instruction's `k` operands. -/
theorem emitsOnly_emit_adv (e : Event) (k : Nat) (s : State) : emitsOnly [e] (1 + k) s ((s.emit e).adv k) :=
  emitsOnly_adv k rfl rfl ⟨rfl, rfl, rfl⟩

theorem exec_unrecognized (w : Word) (s : State) :
    exec (.unrecognized w) s = .next ((s.emit (.unrecognized s.depth s.active.pc w)).adv 0) := rfl

theorem exec_print_indirect {s : State} (i : Word) (h : s.params.printMode1 = .indirect) :
    exec (.print 1 i) s = withReg i s (fun r => printConst (s.readReg r) s) := by
  simp [exec, execPrint, h]

theorem exec_print_direct {s : State} (i : Word) (h : s.params.printMode1 = .direct) :
    exec (.print 1 i) s = printConst i s := by
  simp [exec, execPrint, h]

theorem exec_print_badMode {m : Word} (i : Word) (s : State) (h0 : m ≠ 0) (h1 : m ≠ 1) :
    exec (.print m i) s = .next (s.fault .invalidPrintMode m) := by
  simp [exec, execPrint, h0, h1, raiseFault]

theorem printConst_valid {j : Word} {s : State} {str : Str} (h0 : 0 ≤ j) (h : s.active.consts[j.toNat]? = some str) :
    printConst j s = .next ((s.emit (.str str)).adv 2) := by
  rw [printConst, withConst_valid h0 h]

theorem printConst_invalid {j : Word} {s : State} (h : j < 0 ∨ (s.active.consts.length : Int) ≤ j) :
    printConst j s = .next (s.fault .constantOutOfRange j) := by
  rw [printConst, withConst_invalid h]

/-! ## Blocks -/

@[simp] theorem endBlock_consts (s : State) (which : BlockKind) (len : Nat) (closed : Bool) :
    (s.endBlock which len closed).active.consts = s.active.consts := by
  cases closed <;> rfl

@[simp] theorem endBlock_funs (s : State) (which : BlockKind) (len : Nat) (closed : Bool) :
    (s.endBlock which len closed).active.funs = s.active.funs := by
  cases closed <;> rfl

/-- Where a block ends: past its delimiter without a report, or at MEM_CAP with one (44_block_parsers.md R182). -/
theorem endBlock_end (s : State) (which : BlockKind) (len : Nat) (closed : Bool) :
    (closed = true → (s.endBlock which len closed).active.pc = min (s.active.pc + len) memCap ∧
      keepsOut s (s.endBlock which len closed)) ∧
    (closed = false → (s.endBlock which len closed).active.pc = memCap ∧
      (s.endBlock which len closed).out = s.out ++ [.unterminated s.depth s.active.pc which]) := by
  cases closed with
  | true => exact ⟨fun _ => ⟨rfl, rfl⟩, nofun⟩
  | false => exact ⟨nofun, fun _ => ⟨rfl, rfl⟩⟩

theorem exec_constantLiteral (codes : List Word) (closed : Bool) (s : State) : exec (.constantLiteral codes closed) s =
    .next ((s.appendConst codes).endBlock .constant (codes.length + 2) closed) := rfl

theorem exec_functionDeclare (k : Word) (body : List Word) (closed : Bool) (s : State) :
    exec (.functionDeclare k body closed) s =
      withConst k s (fun name => .next ((s.bindFun name body).endBlock .function (body.length + 3) closed)) := rfl

/-- A constant-literal whose delimiter memory holds at `j` (44_block_parsers.md R180). -/
theorem fetch_constantLiteral {f : Frame} {j : Nat} (hw : Cells.get f.mem f.pc = 21) (hlo : f.pc < j) (hhi : j < memCap)
    (hd : Cells.get f.mem j = 21) (hbefore : ∀ l, f.pc < l → l < j → Cells.get f.mem l ≠ 21) :
    f.fetch = .constantLiteral (f.mem.window (f.pc + 1) (j - (f.pc + 1))) true := by
  have hpayload : ∀ w ∈ f.mem.window (f.pc + 1) (j - (f.pc + 1)), w ≠ 21 :=
    forall_mem_window fun l hl hu => hbefore l hl (by omega)
  have hfetch : f.fetch = .constantLiteral (scan 21 f.following).payload (scan 21 f.following).closed := by
    rw [Frame.fetch, hw]
    rfl
  rw [hfetch, Frame.following, window_toEnd_split f.mem hlo hhi, hd, scan_closed 21 _ _ hpayload]

end Sys2Proof.Machine

open Sys2Proof Sys2Proof.Machine

/-- Settles O14: the report is made, then the pc goes one word on. -/
theorem unrecognizedWordIsReported : Obligations.UnrecognizedWordIsReported :=
  fun w s => ⟨_, exec_unrecognized w s, emitsOnly_emit_adv _ 0 s⟩

/-- Settles O16: the two answers of the target check. -/
theorem jumpGoesToTheTarget : Obligations.JumpGoesToTheTarget :=
  fun t s => ⟨fun h => ⟨_, (exec_jump t s).trans (jumpTo_nonneg s h), jumps_setPc t.toNat s⟩,
    fun h => (exec_jump t s).trans (jumpTo_neg s h)⟩

/-- Settles O17: the register check, the comparison, and the target check of a taken jump. -/
theorem jumpIfEqualTakesEqual : Obligations.JumpIfEqualTakesEqual := by
  intro t i v s
  refine ⟨fun h0 h1 he ht => ?taken, fun h0 h1 hne => ?notTaken, fun h => ?badReg, fun h0 h1 he ht => ?badTarget⟩
  case taken => exact ⟨_, (exec_jumpIfEqual_taken h0 h1 he).trans (jumpTo_nonneg s ht), jumps_setPc t.toNat s⟩
  case notTaken =>
    exact ⟨_, exec_jumpIfEqual_notTaken h0 h1 hne, emitsOnly_adv 3 (List.append_nil _).symm rfl ⟨rfl, rfl, rfl⟩⟩
  case badReg => rw [exec_jumpIfEqual, withReg_invalid h]
  case badTarget => exact (exec_jumpIfEqual_taken h0 h1 he).trans (jumpTo_neg s ht)

/-- Settles O24: the two ends of the block after the append. -/
theorem constantLiteralAppends : Obligations.ConstantLiteralAppends := by
  intro codes closed s
  have hkeeps : keepsBlock s ((s.appendConst codes).endBlock .constant (codes.length + 2) closed) :=
    ⟨by simp, by simp, by simp⟩
  obtain ⟨hclosed, hopen⟩ := endBlock_end (s.appendConst codes) .constant (codes.length + 2) closed
  exact ⟨_, exec_constantLiteral codes closed s, by simp, hclosed, hopen, fun _ _ => by simp [State.readReg],
    fun _ => by simp [State.readMem], fun _ _ => by simp, hkeeps⟩

/-- Settles O25: the two ends of the block after the binding, and the check of the constant-index. -/
theorem functionDeclareBinds : Obligations.FunctionDeclareBinds := by
  intro k body closed s
  refine ⟨fun name h0 hn => ?_, fun h => by rw [exec_functionDeclare, withConst_invalid h]⟩
  have hexec := (exec_functionDeclare k body closed s).trans (withConst_valid h0 hn)
  have hother : keepsTableBut [name] s ((s.bindFun name body).endBlock .function (body.length + 3) closed) :=
    fun other ho => by simpa using body_bind_ne s.active.funs body (List.ne_of_not_mem_cons ho)
  have hkeeps : keepsBlock s ((s.bindFun name body).endBlock .function (body.length + 3) closed) :=
    ⟨by simp, by simp, by simp⟩
  obtain ⟨hclosed, hopen⟩ := endBlock_end (s.bindFun name body) .function (body.length + 3) closed
  exact ⟨_, hexec, by simp, hother, hclosed, hopen, fun _ _ => by simp [State.readReg],
    fun _ => by simp [State.readMem], by simp [keepsPool], hkeeps⟩

/-- Settles O26: the words up to the first delimiter are fetched as the codes, and the instruction appends them. -/
theorem constantInMemoryIsAppended : Obligations.ConstantInMemoryIsAppended := by
  intro s j hs hw hlo hhi hd hbefore
  have hstep := step_eq_exec hs (hlo.trans hhi)
  rw [fetch_constantLiteral hw hlo hhi hd hbefore] at hstep
  obtain ⟨t, ht, hconsts, hclosed, -, hregs, hmem, htable, hblock⟩ :=
    constantLiteralAppends (s.active.mem.window (s.active.pc + 1) (j - (s.active.pc + 1))) true s
  obtain ⟨hpc, hout⟩ := hclosed rfl
  refine ⟨t, _, hstep.trans ht, hconsts, ?_, window_length .., fun l hl hu => ?_, hregs, hmem, htable, hout, hblock⟩
  · rw [hpc, window_length]
    omega
  · have hpos : s.active.pc + 1 + (l - (s.active.pc + 1)) = l := by omega
    rw [window_getD, if_pos (by omega), hpos, State.readMem]

/-- Settles O27, by the answer of `print 0` for a valid register. -/
theorem printNumberEmitsTheRegister : Obligations.PrintNumberEmitsTheRegister :=
  fun _ s h0 h1 => ⟨_, exec_print_num s h0 h1, emitsOnly_emit_adv _ 2 s⟩

/-- Settles O28: under either reading the constant printed is at a position of the pool. -/
theorem printStringEmitsTheConstant : Obligations.PrintStringEmitsTheConstant := by
  intro i s str
  refine ⟨fun hmode h0 h1 hpos hstr => ?indirect, fun hmode hpos hstr => ?direct⟩ <;>
    refine ⟨_, ?_, emitsOnly_emit_adv _ 2 s⟩
  case indirect => rw [exec_print_indirect i hmode, withReg_valid h0 h1, printConst_valid hpos hstr]
  case direct => rw [exec_print_direct i hmode, printConst_valid hpos hstr]

/-- Settles O29: each check's fault, the checks before it passed. -/
theorem printFaults : Obligations.PrintFaults := by
  intro m i s
  refine ⟨exec_print_badMode i s, fun hm hi => ?badReg, fun hm hmode h0 h1 hpos => ?indirect, fun hm hmode hpos => ?direct⟩
  case badReg =>
    rcases hm with rfl | ⟨rfl, hmode⟩
    · rw [exec_print_zero, withReg_invalid hi]
    · rw [exec_print_indirect i hmode, withReg_invalid hi]
  case indirect => rw [hm, exec_print_indirect i hmode, withReg_valid h0 h1, printConst_invalid hpos]
  case direct => rw [hm, exec_print_direct i hmode, printConst_invalid hpos]

end

section
/-! SUPPORT. The arithmetic instructions by their shared sequence: which operation each instruction runs, and what the
sequence answers. Settles O18 to O23 (43_alu.md). -/

namespace Sys2Proof.Machine

variable {op : Params → Word → Word → AluResult} {a b : Word} {s : State}

/-! ## The shared sequence -/

theorem arithmetic_value {r : Word} (ha0 : 0 ≤ a) (ha1 : a < (regCap : Int)) (hb0 : 0 ≤ b) (hb1 : b < (regCap : Int))
    (hr : op s.params (s.readReg a.toNat) (s.readReg b.toNat) = .value r) :
    arithmetic op a b s = .next (((s.writeReg a.toNat r).writeReg b.toNat 0).adv 2) := by
  rw [arithmetic_valid ha0 ha1 hb0 hb1, hr]

theorem arithmetic_overflow (ha0 : 0 ≤ a) (ha1 : a < (regCap : Int)) (hb0 : 0 ≤ b) (hb1 : b < (regCap : Int))
    (hr : op s.params (s.readReg a.toNat) (s.readReg b.toNat) = .overflow) :
    arithmetic op a b s = .next (s.fault .arithmeticOverflow a) := by
  rw [arithmetic_valid ha0 ha1 hb0 hb1, hr]

theorem arithmetic_divideByZero (ha0 : 0 ≤ a) (ha1 : a < (regCap : Int)) (hb0 : 0 ≤ b) (hb1 : b < (regCap : Int))
    (hr : op s.params (s.readReg a.toNat) (s.readReg b.toNat) = .divideByZero) :
    arithmetic op a b s = .next (s.fault .divisionByZero b) := by
  rw [arithmetic_valid ha0 ha1 hb0 hb1, hr]

theorem arithmetic_invalid_a (h : a < 0 ∨ (regCap : Int) ≤ a) :
    arithmetic op a b s = .next (s.fault .registerOutOfRange a) := by
  rw [arithmetic, withReg_invalid h]

theorem arithmetic_invalid_b (ha0 : 0 ≤ a) (ha1 : a < (regCap : Int)) (h : b < 0 ∨ (regCap : Int) ≤ b) :
    arithmetic op a b s = .next (s.fault .registerOutOfRange b) := by
  rw [arithmetic, withReg_valid ha0 ha1, withReg_invalid h]

/-- A sequence that raised no fault had two valid indices and a value for its result. -/
theorem arithmetic_completed {t : State} (h : arithmetic op a b s = .next t) (ht : t.status = .running) :
    ∃ r, 0 ≤ a ∧ 0 ≤ b ∧ op s.params (s.readReg a.toNat) (s.readReg b.toNat) = .value r ∧
      t = ((s.writeReg a.toNat r).writeReg b.toNat 0).adv 2 := by
  have hfault : ∀ kind value, s.fault kind value ≠ t := fun kind value he => by simp [← he] at ht
  rcases withReg_cases h with hbad | ⟨ha0, ha1, h⟩
  · exact (hfault _ _ (Host.Outcome.next.inj hbad).symm).elim
  rcases withReg_cases h with hbad | ⟨hb0, hb1, h⟩
  · exact (hfault _ _ (Host.Outcome.next.inj hbad).symm).elim
  cases hr : op s.params (s.readReg a.toNat) (s.readReg b.toNat) with
  | value r => exact ⟨r, ha0, hb0, rfl, by simpa [hr] using h.symm⟩
  | overflow => exact (hfault .arithmeticOverflow a (by simpa [hr, raiseFault] using h)).elim
  | divideByZero => exact (hfault .divisionByZero b (by simpa [hr, raiseFault] using h)).elim

/-- The two writes and the advance have the effect of a destructive consume (R154 to R156). -/
theorem consumes_writes (a b : Nat) (r : Word) (s : State) :
    consumes a b r s (((s.writeReg a r).writeReg b 0).adv 2) := by
  have ha : a ≠ b → (((s.writeReg a r).writeReg b 0).adv 2).readReg a = r := fun hab => by
    simp [readReg_writeReg_ne _ _ hab]
  have hothers : keepsRegsBut [a, b] s (((s.writeReg a r).writeReg b 0).adv 2) := fun i hi => by
    obtain ⟨hia, hib⟩ : i ≠ a ∧ i ≠ b := by simpa using hi
    simp [readReg_writeReg_ne _ _ hia, readReg_writeReg_ne _ _ hib]
  exact ⟨ha, by simp, hothers, rfl, fun _ => rfl, rfl, fun _ _ => rfl, rfl, rfl, rfl, rfl⟩

/-! ## The operation of each instruction -/

/-- The instructions with an exact result, each with it (R150 to R152). -/
def exactOps : List ((Word → Word → Instr) × (Word → Word → Word)) :=
  [(Instr.add, fun x y => x + y), (Instr.sub, fun x y => x - y), (Instr.mul, fun x y => x * y)]

/-- add, sub and mul run the shared sequence on the overflow check of their exact result. -/
theorem exec_exactOp {f : (Word → Word → Instr) × (Word → Word → Word)} (hf : f ∈ exactOps) (a b : Word) (s : State) :
    exec (f.1 a b) s = arithmetic (fun p x y => overflowCheck p (f.2 x y)) a b s := by
  simp only [exactOps, List.mem_cons, List.not_mem_nil, or_false] at hf
  rcases hf with rfl | rfl | rfl <;> rfl

theorem exec_div (a b : Word) (s : State) : exec (.div a b) s = arithmetic aluDiv a b s := rfl

/-- Each arithmetic instruction runs the shared sequence on some operation. -/
theorem exec_eq_arithmetic {f : Word → Word → Instr} (hf : f ∈ [Instr.add, Instr.sub, Instr.mul, Instr.div]) :
    ∃ op, ∀ a b s, exec (f a b) s = arithmetic op a b s := by
  simp only [List.mem_cons, List.not_mem_nil, or_false] at hf
  rcases hf with rfl | rfl | rfl | rfl <;> exact ⟨_, fun _ _ _ => rfl⟩

theorem overflowCheck_of_inRange {p : Params} {r : Word} (h : inRange p.wordBits r = true) :
    overflowCheck p r = .value r := if_pos h

theorem inRange_eq_false {W : Nat} {r : Word} (h : r < wordMin W ∨ wordMax W < r) : inRange W r = false := by
  rw [← Bool.not_eq_true, inRange_iff, not_and_or, not_le, not_le]
  exact h

theorem aluDiv_value {p : Params} {x y : Word} (h0 : y ≠ 0) (hmin : ¬(x = wordMin p.wordBits ∧ y = -1)) :
    aluDiv p x y = .value (Int.tdiv x y) := by
  rw [aluDiv, if_neg h0, if_neg hmin]

/-- A value that an operation gives when the exact result is a word is that result. -/
theorem value_eq_of_inRange {p : Params} {x r : Word} (h : overflowCheck p x = .value r)
    (hx : inRange p.wordBits x = true) : r = x :=
  (AluResult.value.inj ((overflowCheck_of_inRange hx).symm.trans h)).symm

theorem aluDiv_eq_tdiv {p : Params} {x y r : Word} (h : aluDiv p x y = .value r) : r = Int.tdiv x y := by
  unfold aluDiv at h
  split_ifs at h
  exact (AluResult.value.inj h).symm

/-- The instructions with an exact result, and div with its quotient rounded toward zero (R150 to R153). -/
def valueOps : List ((Word → Word → Instr) × (Word → Word → Word)) :=
  [(Instr.add, fun x y => x + y), (Instr.sub, fun x y => x - y), (Instr.mul, fun x y => x * y), (Instr.div, Int.tdiv)]

/-- Each runs the shared sequence on an operation whose value, when its result is a word, is that result. -/
theorem exec_valueOp {f : (Word → Word → Instr) × (Word → Word → Word)} (hf : f ∈ valueOps) (a b : Word) (s : State) :
    ∃ op, exec (f.1 a b) s = arithmetic op a b s ∧ ∀ p x y r, op p x y = .value r →
      inRange p.wordBits (f.2 x y) = true → r = f.2 x y := by
  by_cases hdiv : f = (Instr.div, Int.tdiv)
  · subst hdiv
    exact ⟨aluDiv, exec_div a b s, fun _ _ _ _ h _ => aluDiv_eq_tdiv h⟩
  · have hexact : f ∈ exactOps := by simpa [valueOps, exactOps, hdiv] using hf
    exact ⟨_, exec_exactOp hexact a b s, fun _ _ _ _ => value_eq_of_inRange⟩

/-- The remainder of a truncating division is smaller than the divisor. -/
theorem abs_tmod_lt (p : Int) {q : Int} (h : q ≠ 0) : |Int.tmod p q| < |q| := by
  rw [Int.abs_eq_natAbs, Int.abs_eq_natAbs, Int.natAbs_tmod]
  exact_mod_cast Nat.mod_lt _ (Int.natAbs_pos.mpr h)

/-- The remainder of a truncating division has the dividend's sign. -/
theorem tmod_nonpos {p : Int} (q : Int) (h : p ≤ 0) : Int.tmod p q ≤ 0 := by
  have hneg := Int.tmod_nonneg q (Int.neg_nonneg_of_nonpos h)
  rw [Int.neg_tmod] at hneg
  exact Int.nonpos_of_neg_nonneg hneg

end Sys2Proof.Machine

open Sys2Proof Sys2Proof.Machine

/-- Settles O18: the overflow check passes a result in the word range on. -/
theorem addSubMulConsume : Obligations.AddSubMulConsume := by
  intro f hf a b s ha0 ha1 hb0 hb1 hlo hhi
  have hr := overflowCheck_of_inRange (inRange_iff.mpr ⟨hlo, hhi⟩)
  exact ⟨_, (exec_exactOp hf a b s).trans (arithmetic_value ha0 ha1 hb0 hb1 hr), consumes_writes ..⟩

/-- Settles O20: the two policies of the overflow check on a result outside the word range. -/
theorem overflowFollowsThePolicy : Obligations.OverflowFollowsThePolicy := by
  intro f hf a b s r ha0 ha1 hb0 hb1 hr hout
  subst hr
  have hexec := exec_exactOp hf a b s
  rcases overflowCheck_cases s.params (f.2 (s.readReg a.toNat) (s.readReg b.toNat)) with
    ⟨hin, -⟩ | ⟨-, hpol, hres⟩ | ⟨-, hpol, hres⟩
  · simp [inRange_eq_false hout] at hin
  · exact ⟨fun _ => hexec.trans (arithmetic_overflow ha0 ha1 hb0 hb1 hres), fun hwrap => by simp [hpol] at hwrap⟩
  · obtain ⟨hlo, hhi, hcong⟩ := wrapWord_spec s.params.wordBits (f.2 (s.readReg a.toNat) (s.readReg b.toNat))
    exact ⟨fun hfault => by simp [hpol] at hfault, fun _ =>
      ⟨_, _, hexec.trans (arithmetic_value ha0 ha1 hb0 hb1 hres), consumes_writes .., hlo, hhi, hcong⟩⟩

/-- Settles O21: the remainder is that of truncating division. -/
theorem divTruncatesTowardZero : Obligations.DivTruncatesTowardZero := by
  intro a b s p q ha0 ha1 hb0 hb1 hp hq hq0 hmin
  subst hp hq
  have hexec := (exec_div a b s).trans (arithmetic_value ha0 ha1 hb0 hb1 (aluDiv_value hq0 hmin))
  exact ⟨_, _, Int.tmod _ _, hexec, consumes_writes .., (Int.tdiv_mul_add_tmod _ _).symm, abs_tmod_lt _ hq0,
    Int.tmod_nonneg _, tmod_nonpos _⟩

/-- Settles O22: the two checks of div, in their order. -/
theorem divFaults : Obligations.DivFaults := by
  intro a b s ha0 ha1 hb0 hb1
  rw [exec_div]
  refine ⟨fun h0 => arithmetic_divideByZero ha0 ha1 hb0 hb1 ?_, fun hmin hneg => arithmetic_overflow ha0 ha1 hb0 hb1 ?_⟩
  · simp [aluDiv, h0]
  · simp [aluDiv, hmin, hneg]

/-- Settles O23: the shared sequence checks a, then b. -/
theorem arithmeticChecksItsRegisters : Obligations.ArithmeticChecksItsRegisters := by
  intro f hf a b s
  obtain ⟨op, hop⟩ := exec_eq_arithmetic hf
  rw [hop]
  exact ⟨arithmetic_invalid_a, arithmetic_invalid_b⟩

/-- Settles O19: what a completed sequence wrote. -/
theorem arithmeticConsumesRegisterB : Obligations.ArithmeticConsumesRegisterB := by
  intro f hf a b s t _ h ht
  obtain ⟨op, hop, hexact⟩ := exec_valueOp hf a b s
  rw [hop] at h
  obtain ⟨r, ha0, hb0, hr, rfl⟩ := arithmetic_completed h ht
  obtain ⟨ha, hb, -⟩ := consumes_writes a.toNat b.toNat r s
  refine ⟨hb, fun hab hin => ?_⟩
  have hne : a.toNat ≠ b.toNat := by
    unfold Word at *
    omega
  exact (ha hne).trans (hexact _ _ _ r hr hin)

end

section
/-! SUPPORT. function-call by its checks, and the faults each instruction can raise, read off its operand checks. Settles O30,
O31 and O37 (46_call_context.md R215, 60_exceptions.md R240). -/

namespace Sys2Proof.Machine

/-! ## function-call -/

theorem exec_functionCall (k : Word) (s : State) : exec (.functionCall k) s = execFunctionCall k s := rfl

section
variable {k : Word} {s : State} {name : Str} {body : List Word}

theorem exec_functionCall_invalid (h : k < 0 ∨ (s.active.consts.length : Int) ≤ k) :
    exec (.functionCall k) s = .next (s.fault .constantOutOfRange k) := by
  rw [exec_functionCall, execFunctionCall, withConst_invalid h]

theorem exec_functionCall_unbound (h0 : 0 ≤ k) (hn : s.active.consts[k.toNat]? = some name)
    (hb : s.active.funs.body name = none) : exec (.functionCall k) s = .next (s.fault .unboundFunction k) := by
  rw [exec_functionCall, execFunctionCall, withConst_valid h0 hn]
  simp [hb, raiseFault]

theorem exec_functionCall_tooDeep (h0 : 0 ≤ k) (hn : s.active.consts[k.toNat]? = some name)
    (hb : s.active.funs.body name = some body) (hd : s.depth = s.params.maxCallDepth) :
    exec (.functionCall k) s = .next (s.fault .callDepthExceeded (s.depth : Int)) := by
  rw [exec_functionCall, execFunctionCall, withConst_valid h0 hn]
  simp [hb, hd, raiseFault]

theorem exec_functionCall_bound (h0 : 0 ≤ k) (hn : s.active.consts[k.toNat]? = some name)
    (hb : s.active.funs.body name = some body) (hd : s.depth ≠ s.params.maxCallDepth) :
    exec (.functionCall k) s = .next ((s.adv 1).pushFrame (s.active.child body)) := by
  rw [exec_functionCall, execFunctionCall, withConst_valid h0 hn]
  simp [hb, hd]

end

/-- The child's memory holds the body from index 0 and 0 elsewhere (10_state.md R36). -/
theorem child_get (f : Frame) (body : List Word) {a : Nat} (ha : a < memCap) :
    Cells.get (f.child body).mem a = body.getD a 0 := by
  rw [Frame.child, get_load [] 0 body (Nat.zero_le a) ha, Nat.sub_zero, get_nil]
  split
  · rfl
  · rw [List.getD_eq_default _ _ (Nat.le_of_not_lt ‹_›)]

/-! ## The faults of an outcome -/

/-- Whenever the outcome is a Faulted block, its record's kind and value are among `allowed`. -/
def FaultsWithin (allowed : FaultKind → Word → Prop) (o : Host.Outcome State Fault Refusal) : Prop :=
  ∀ t r, o = .next t → t.status = .faulted r → allowed r.kind r.value

section
variable {allowed : FaultKind → Word → Prop} {s : State}

theorem faultsWithin_fault {kind : FaultKind} {value : Word} (h : allowed kind value) :
    FaultsWithin allowed (.next (s.fault kind value)) := by
  rintro t r ht hr
  obtain rfl := Host.Outcome.next.inj ht
  obtain rfl := Status.faulted.inj hr
  exact h

theorem faultsWithin_next {u : State} (h : u.status = .running) : FaultsWithin allowed (.next u) := by
  rintro t r ht hr
  obtain rfl := Host.Outcome.next.inj ht
  simp [h] at hr

theorem faultsWithin_withReg {i : Word} {k : Nat → Host.Outcome State Fault Refusal}
    (h : allowed .registerOutOfRange i) (hk : FaultsWithin allowed (k i.toNat)) : FaultsWithin allowed (withReg i s k) := by
  rcases withReg_cases (rfl : withReg i s k = _) with hbad | ⟨-, -, hok⟩
  · exact hbad ▸ faultsWithin_fault h
  · exact hok ▸ hk

theorem faultsWithin_withConst {j : Word} {k : Str → Host.Outcome State Fault Refusal}
    (h : allowed .constantOutOfRange j) (hk : ∀ name, FaultsWithin allowed (k name)) :
    FaultsWithin allowed (withConst j s k) := by
  rcases withConst_cases (rfl : withConst j s k = _) with hbad | ⟨name, -, -, hok⟩
  · exact hbad ▸ faultsWithin_fault h
  · exact hok ▸ hk name

theorem faultsWithin_jumpTo {t : Word} (hs : s.status = .running) (h : allowed .memoryOverrun t) :
    FaultsWithin allowed (jumpTo t s) := by
  rcases jumpTo_eq t s with ⟨-, hbad⟩ | ⟨-, hok⟩
  · exact hbad ▸ faultsWithin_fault h
  · exact hok ▸ faultsWithin_next hs

theorem faultsWithin_arithmetic {op : Params → Word → Word → AluResult} {a b : Word} (hs : s.status = .running)
    (ha : allowed .registerOutOfRange a) (hb : allowed .registerOutOfRange b) (hover : allowed .arithmeticOverflow a)
    (hzero : (∃ p x y, op p x y = .divideByZero) → allowed .divisionByZero b) :
    FaultsWithin allowed (arithmetic op a b s) := by
  refine faultsWithin_withReg ha (faultsWithin_withReg hb ?_)
  cases hr : op s.params (s.readReg a.toNat) (s.readReg b.toNat) with
  | value r => exact faultsWithin_next hs
  | overflow => exact faultsWithin_fault hover
  | divideByZero => exact faultsWithin_fault (hzero ⟨_, _, _, hr⟩)

theorem overflowCheck_ne_divideByZero (p : Params) (r : Word) : overflowCheck p r ≠ .divideByZero := by
  rcases overflowCheck_cases p r with ⟨-, h⟩ | ⟨-, -, h⟩ | ⟨-, -, h⟩ <;> simp [h]

/-- add, sub and mul fault with a register-index or an overflow. -/
theorem faultsWithin_exactOp {f : (Word → Word → Instr) × (Word → Word → Word)} (hf : f ∈ exactOps) {a b : Word}
    (hs : s.status = .running) :
    FaultsWithin (fun kind value => (kind = .registerOutOfRange ∧ (value = a ∨ value = b)) ∨
      (kind = .arithmeticOverflow ∧ value = a)) (exec (f.1 a b) s) := by
  rw [exec_exactOp hf]
  refine faultsWithin_arithmetic hs (.inl ⟨rfl, .inl rfl⟩) (.inl ⟨rfl, .inr rfl⟩) (.inr ⟨rfl, rfl⟩) ?_
  rintro ⟨p, x, y, h⟩
  exact absurd h (overflowCheck_ne_divideByZero p _)

theorem faultsWithin_printConst {j : Word} (hs : s.status = .running) (h : allowed .constantOutOfRange j) :
    FaultsWithin allowed (printConst j s) :=
  faultsWithin_withConst h fun _ => faultsWithin_next hs

theorem faultsWithin_print {m i : Word} (hs : s.status = .running) (hmode : allowed .invalidPrintMode m)
    (hreg : allowed .registerOutOfRange i) (hpos : allowed .constantOutOfRange (s.readReg i.toNat))
    (hdirect : allowed .constantOutOfRange i) : FaultsWithin allowed (exec (.print m i) s) := by
  by_cases h0 : m = 0
  · rw [h0, exec_print_zero]
    exact faultsWithin_withReg hreg (faultsWithin_next hs)
  by_cases h1 : m = 1
  · rw [h1]
    cases hp : s.params.printMode1 with
    | indirect =>
      rw [exec_print_indirect i hp]
      exact faultsWithin_withReg hreg (faultsWithin_printConst hs hpos)
    | direct =>
      rw [exec_print_direct i hp]
      exact faultsWithin_printConst hs hdirect
  · rw [exec_print_badMode i s h0 h1]
    exact faultsWithin_fault hmode

theorem faultsWithin_functionCall {k : Word} (hs : s.status = .running) (hpos : allowed .constantOutOfRange k)
    (hunbound : allowed .unboundFunction k) (hdepth : allowed .callDepthExceeded (s.depth : Int)) :
    FaultsWithin allowed (exec (.functionCall k) s) := by
  rw [exec_functionCall, execFunctionCall]
  refine faultsWithin_withConst hpos fun name => ?_
  cases s.active.funs.body name with
  | none => exact faultsWithin_fault hunbound
  | some body =>
    dsimp only
    split
    · exact faultsWithin_fault hdepth
    · exact faultsWithin_next hs

/-- The faults of each instruction, as 60_exceptions.md R240 lists them. -/
def faultCauses (s : State) : Instr → FaultKind → Word → Prop
  | .nop _, _, _ | .unrecognized _, _, _ | .constantLiteral _ _, _, _ => False
  | .push _ reg, kind, value => kind = .registerOutOfRange ∧ value = reg
  | .jump target, kind, value => kind = .memoryOverrun ∧ value = target
  | .jumpIfEqual target reg _, kind, value =>
    (kind = .registerOutOfRange ∧ value = reg) ∨ (kind = .memoryOverrun ∧ value = target)
  | .add a b, kind, value | .sub a b, kind, value | .mul a b, kind, value =>
    (kind = .registerOutOfRange ∧ (value = a ∨ value = b)) ∨ (kind = .arithmeticOverflow ∧ value = a)
  | .div a b, kind, value => (kind = .registerOutOfRange ∧ (value = a ∨ value = b)) ∨
    (kind = .divisionByZero ∧ value = b) ∨ (kind = .arithmeticOverflow ∧ value = a)
  | .functionDeclare k _ _, kind, value => kind = .constantOutOfRange ∧ value = k
  | .print m reg, kind, value => (kind = .invalidPrintMode ∧ value = m) ∨ (kind = .registerOutOfRange ∧ value = reg) ∨
    (kind = .constantOutOfRange ∧ (value = s.readReg reg.toNat ∨ value = reg))
  | .functionCall k, kind, value => (kind = .constantOutOfRange ∧ value = k) ∨ (kind = .unboundFunction ∧ value = k) ∨
    (kind = .callDepthExceeded ∧ value = (s.depth : Int))

theorem exec_faultsWithin (i : Instr) (hs : s.status = .running) : FaultsWithin (faultCauses s i) (exec i s) := by
  cases i with
  | nop alt => exact faultsWithin_next (u := s.adv 0) hs
  | unrecognized w => exact faultsWithin_next (u := (s.emit _).adv 0) hs
  | constantLiteral codes closed =>
    rw [exec_constantLiteral]
    exact faultsWithin_next (by simpa using hs)
  | push v i =>
    rw [exec_push]
    exact faultsWithin_withReg ⟨rfl, rfl⟩ (faultsWithin_next hs)
  | jump target =>
    rw [exec_jump]
    exact faultsWithin_jumpTo hs ⟨rfl, rfl⟩
  | jumpIfEqual target i v =>
    rw [exec_jumpIfEqual]
    refine faultsWithin_withReg (.inl ⟨rfl, rfl⟩) ?_
    split
    · exact faultsWithin_jumpTo hs (.inr ⟨rfl, rfl⟩)
    · exact faultsWithin_next hs
  | add a b => exact faultsWithin_exactOp (f := (Instr.add, fun x y => x + y)) (by simp [exactOps]) hs
  | sub a b => exact faultsWithin_exactOp (f := (Instr.sub, fun x y => x - y)) (by simp [exactOps]) hs
  | mul a b => exact faultsWithin_exactOp (f := (Instr.mul, fun x y => x * y)) (by simp [exactOps]) hs
  | div a b =>
    rw [exec_div]
    exact faultsWithin_arithmetic hs (.inl ⟨rfl, .inl rfl⟩) (.inl ⟨rfl, .inr rfl⟩) (.inr (.inr ⟨rfl, rfl⟩))
      fun _ => .inr (.inl ⟨rfl, rfl⟩)
  | functionDeclare k body closed =>
    rw [exec_functionDeclare]
    exact faultsWithin_withConst ⟨rfl, rfl⟩ fun name => faultsWithin_next (by simpa using hs)
  | print m i =>
    exact faultsWithin_print hs (.inl ⟨rfl, rfl⟩) (.inr (.inl ⟨rfl, rfl⟩)) (.inr (.inr ⟨rfl, .inl rfl⟩))
      (.inr (.inr ⟨rfl, .inr rfl⟩))
  | functionCall k =>
    exact faultsWithin_functionCall hs (.inl ⟨rfl, rfl⟩) (.inr (.inl ⟨rfl, rfl⟩)) (.inr (.inr ⟨rfl, rfl⟩))

end

end Sys2Proof.Machine

open Sys2Proof Sys2Proof.Machine

/-- Settles O30: with every check passed, the child is pushed on the caller at its return point. -/
theorem functionCallPushesTheChild : Obligations.FunctionCallPushesTheChild :=
  fun _ s _ body h0 hn hb hd => ⟨_, exec_functionCall_bound h0 hn hb hd, rfl, rfl,
    fun _ ha => child_get s.active body ha, rfl, rfl, rfl, rfl, rfl, rfl, rfl⟩

/-- Settles O31: each check's fault, the checks before it passed. -/
theorem functionCallFaults : Obligations.FunctionCallFaults :=
  fun _ _ => ⟨exec_functionCall_invalid, fun _ => exec_functionCall_unbound, fun _ _ => exec_functionCall_tooDeep⟩

/-- Settles O37: the faults of each instruction are those of its checks. -/
theorem faultKindsAndCauses : Obligations.FaultKindsAndCauses := by
  intro i s t r hs h hr
  have hcauses := exec_faultsWithin i hs t r h hr
  cases i <;> exact hcauses

end

section
/-! SUPPORT. What a step does to the frame that runs it, to the frames below it, and to the whole state. Settles O35, O38, O40,
O43, O44 and O45 (10_state.md, 40_fetch_dispatch.md R108, 60_exceptions.md R243). -/

namespace Sys2Proof.Machine

/-! ## The whole state -/

@[simp] theorem endFrame_params (s : State) : (endFrame s).params = s.params := by
  cases hp : s.parents with
  | nil => rw [endFrame_top hp]
  | cons caller below => rw [endFrame_child hp]

theorem Effect.params {s t : State} {i : Instr} (h : Effect s i t) : t.params = s.params := by
  cases h <;> simp

theorem step_params {s t : State} (h : step s = .next t) : t.params = s.params := by
  obtain ⟨-, ⟨-, rfl⟩ | ⟨-, -, he⟩⟩ := step_cases h
  · exact endFrame_params s
  · exact he.params

/-! ## The frame that ran an instruction -/

/-- What the frame that ran instruction `i` in `s` may have become: its pool, its table, and, when the block is still Running
in `t`, its pc (R26, R27, R108). -/
structure FrameAfter (s t : State) (i : Instr) (g : Frame) : Prop where
  pool : g.consts = s.active.consts ∨ ∃ codes closed, i = .constantLiteral codes closed ∧ g.consts = s.active.consts ++ [codes]
  table : g.funs = s.active.funs ∨ ∃ j body closed name, i = .functionDeclare j body closed ∧
    s.active.consts[j.toNat]? = some name ∧ g.funs = s.active.funs.bind name body
  pc : t.status = .running → s.active.pc < memCap → g.pc ≤ memCap ∧
    (s.active.pc < g.pc ∨ ∃ target : Word, 0 ≤ target ∧ g.pc = min target.toNat memCap ∧
      (i = .jump target ∨ ∃ j v, i = .jumpIfEqual target j v))

/-- An advance within the memory. -/
theorem pc_advanced {p n : Nat} (hn : 0 < n) (hp : p < memCap) : min (p + n) memCap ≤ memCap ∧ p < min (p + n) memCap :=
  ⟨Nat.min_le_right .., Nat.lt_min.mpr ⟨Nat.lt_add_of_pos_right hn, hp⟩⟩

theorem endBlock_pc_advanced {s : State} (which : BlockKind) {len : Nat} (closed : Bool) (hlen : 0 < len)
    (hp : s.active.pc < memCap) : (s.endBlock which len closed).active.pc ≤ memCap ∧
      s.active.pc < (s.endBlock which len closed).active.pc := by
  cases closed with
  | true => exact pc_advanced hlen hp
  | false => exact ⟨le_refl _, hp⟩

/-- An instruction that only moves the pc of the frame that runs it, forward. -/
theorem frameAfter_of_advance {s t : State} (i : Instr) {g : Frame} (hc : g.consts = s.active.consts)
    (hf : g.funs = s.active.funs) {n : Nat} (hn : 0 < n) (hpc : g.pc = min (s.active.pc + n) memCap) :
    FrameAfter s t i g where
  pool := .inl hc
  table := .inl hf
  pc _ hp := by
    rw [hpc]
    exact (pc_advanced hn hp).imp id .inl

/-- The frame that ran an instruction stands at its place, with a called child above it. -/
theorem Effect.frameAfter {s t : State} {i : Instr} (h : Effect s i t) :
    ∃ g above, t.stack = s.parents.reverse ++ g :: above ∧ FrameAfter s t i g := by
  cases h with
  | fault _ kind value => exact ⟨_, [], stack_of_parents_eq rfl, .inl rfl, .inl rfl, fun ht => by simp at ht⟩
  | jump target h0 =>
    exact ⟨_, [], stack_of_parents_eq rfl, .inl rfl, .inl rfl, fun _ _ =>
      ⟨Nat.min_le_right .., .inr ⟨target, h0, rfl, .inl rfl⟩⟩⟩
  | taken target j v h0 =>
    exact ⟨_, [], stack_of_parents_eq rfl, .inl rfl, .inl rfl, fun _ _ =>
      ⟨Nat.min_le_right .., .inr ⟨target, h0, rfl, .inr ⟨j, v, rfl⟩⟩⟩⟩
  | functionDeclare k body closed name hn =>
    exact ⟨_, [], stack_of_parents_eq (by simp), .inl (by simp), .inr ⟨k, body, closed, name, rfl, hn, by simp⟩,
      fun _ hp => (endBlock_pc_advanced (s := s.bindFun name body) _ closed (Nat.succ_pos _) hp).imp id .inl⟩
  | constantLiteral codes closed =>
    exact ⟨_, [], stack_of_parents_eq (by simp), .inr ⟨codes, closed, rfl, by simp⟩, .inl (by simp),
      fun _ hp => (endBlock_pc_advanced (s := s.appendConst codes) _ closed (Nat.succ_pos _) hp).imp id .inl⟩
  | functionCall k name body hn hb hd =>
    exact ⟨(s.adv 1).active, [s.active.child body], by simp [State.stack],
      frameAfter_of_advance _ rfl rfl (n := 2) (by decide) rfl⟩
  | nop alt => exact ⟨_, [], stack_of_parents_eq rfl, frameAfter_of_advance _ rfl rfl (n := 1) (by decide) rfl⟩
  | unrecognized w => exact ⟨_, [], stack_of_parents_eq rfl, frameAfter_of_advance _ rfl rfl (n := 1) (by decide) rfl⟩
  | notTaken target j v => exact ⟨_, [], stack_of_parents_eq rfl, frameAfter_of_advance _ rfl rfl (n := 4) (by decide) rfl⟩
  | _ => exact ⟨_, [], stack_of_parents_eq rfl, frameAfter_of_advance _ rfl rfl (n := 3) (by decide) rfl⟩

/-! ## Frames at their positions -/

/-- Between the stacks before and after a step, a frame is the same at its position, or it is the active one, which ran its
instruction. -/
theorem step_frame {s t : State} {k : Nat} {f g : Frame} (h : step s = .next t) (hf : s.stack[k]? = some f)
    (hg : t.stack[k]? = some g) : g = f ∨ (k + 1 = s.depth ∧ f = s.active ∧ FrameAfter s t s.active.fetch g) := by
  have hlast : k + 1 ≤ s.depth := stack_length s ▸ (List.getElem?_eq_some_iff.mp hf).1
  obtain ⟨-, ⟨-, rfl⟩ | ⟨-, -, he⟩⟩ := step_cases h
  · obtain ⟨popped, hs⟩ := endFrame_stack_prefix s
    rw [← hs, List.getElem?_append_left (List.getElem?_eq_some_iff.mp hg).1, hg] at hf
    exact .inl (Option.some.inj hf)
  · obtain ⟨g', above, ht, hafter⟩ := he.frameAfter
    rw [ht] at hg
    rw [State.stack] at hf
    rcases Nat.lt_or_eq_of_le hlast with hbelow | hactive
    · have hk : k < s.parents.reverse.length := by simpa [State.depth] using hbelow
      rw [List.getElem?_append_left hk] at hf hg
      exact .inl (Option.some.inj (hg.symm.trans hf))
    · obtain rfl : k = s.parents.reverse.length := by simpa [State.depth] using hactive
      obtain rfl : s.active = f := by simpa using hf
      obtain rfl : g' = g := by simpa using hg
      exact .inr ⟨hactive, rfl, hafter⟩

end Sys2Proof.Machine

open Sys2Proof Sys2Proof.Machine

/-- Settles O35: an instruction raises a fault or leaves the status, and the end of a frame halts the block at depth 1 only. -/
theorem faultIsPrecise : Obligations.FaultIsPrecise := by
  intro s t hs h
  obtain ⟨-, ⟨hp, rfl⟩ | ⟨-, -, he⟩⟩ := step_cases h
  · cases hd : s.parents with
    | nil => exact .inr (.inl ⟨by rw [endFrame_top hd, hd], hp⟩)
    | cons caller below =>
      rw [endFrame_child hd]
      exact .inl hs
  · rcases he.fault_or_keeps_status with ⟨kind, value, rfl⟩ | hkeep
    · exact .inr (.inr ⟨_, rfl, rfl, rfl⟩)
    · exact .inl (hkeep.trans hs)

/-- Settles O38, by the same for every effect and for the end of a frame. -/
theorem outputOnlyGrows : Obligations.OutputOnlyGrows := fun _ _ => step_out_prefix

/-- Settles O40: the frames below the active one begin the stack before and after a step. -/
theorem framesBelowAreUntouched : Obligations.FramesBelowAreUntouched := by
  intro s t k f h hk hf
  have hbelow : k < s.parents.reverse.length := by simpa [State.depth] using hk
  obtain ⟨above, ht⟩ := step_keeps_frames_below h
  rw [State.stack, List.getElem?_append_left hbelow] at hf
  rw [← ht, List.getElem?_append_left hbelow, hf]

/-- Settles O43: only the frame that ran its instruction can differ, and its pool and table as that instruction writes them. -/
theorem poolAndTableWriters : Obligations.PoolAndTableWriters := by
  intro s t k f g h hf hg
  rcases step_frame h hf hg with rfl | ⟨hk, rfl, hafter⟩
  · exact ⟨fun hne => absurd rfl hne, fun hne => absurd rfl hne⟩
  · exact ⟨fun hne => ⟨hk, hafter.pool.resolve_left hne⟩, fun hne => ⟨hk, hafter.table.resolve_left hne⟩⟩

/-- Settles O44, by the same for every effect and for the end of a frame. -/
theorem parametersNeverChange : Obligations.ParametersNeverChange := fun _ _ => step_params

/-- Settles O45: the pc of the frame that ran the instruction. -/
theorem pcIncreasesOrIsRedirected : Obligations.PcIncreasesOrIsRedirected := by
  intro s t g _ hp h ht hg
  obtain ⟨-, ⟨hend, -⟩ | ⟨-, -, he⟩⟩ := step_cases h
  · exact absurd hp (Nat.not_lt.mpr hend)
  · obtain ⟨g', above, hstack, hafter⟩ := he.frameAfter
    obtain rfl : g' = g := by simpa [hstack, State.depth] using hg
    exact hafter.pc ht hp

end

section
/-! SUPPORT. Two blocks that differ only below the active frame: every operand check and every instruction answers alike in
both. Settles O41 (46_call_context.md R216). -/

namespace Sys2Proof.Machine

/-- The two states agree on all but the frames below the active one. -/
structure SameAbove (s s' : State) : Prop where
  params : s'.params = s.params
  active : s'.active = s.active
  depth : s'.depth = s.depth
  status : s'.status = s.status
  out : s'.out = s.out

/-- Both outcomes are next states, and those agree on all but the frames below the active one. -/
def SameNext (o o' : Host.Outcome State Fault Refusal) : Prop :=
  ∃ t t', o = .next t ∧ o' = .next t' ∧ SameAbove t t'

section
variable {s s' : State}

theorem sameNext_next {t t' : State} (h : SameAbove t t') : SameNext (.next t) (.next t') := ⟨t, t', rfl, rfl, h⟩

theorem SameAbove.readReg (h : SameAbove s s') (i : Nat) : s'.readReg i = s.readReg i := by
  rw [State.readReg, h.active, State.readReg]

/-- An operation on the active frame that keeps the others. -/
theorem SameAbove.withActive (h : SameAbove s s') (f : Frame) :
    SameAbove { s with active := f } { s' with active := f } :=
  ⟨h.params, rfl, h.depth, h.status, h.out⟩

theorem SameAbove.setPc (h : SameAbove s s') (a : Nat) : SameAbove (s.setPc a) (s'.setPc a) := by
  rw [State.setPc, State.setPc, h.active]
  exact h.withActive _

theorem SameAbove.adv (h : SameAbove s s') (k : Nat) : SameAbove (s.adv k) (s'.adv k) := by
  rw [State.adv, State.adv, h.active]
  exact h.setPc _

theorem SameAbove.writeReg (h : SameAbove s s') (i : Nat) (v : Word) : SameAbove (s.writeReg i v) (s'.writeReg i v) := by
  rw [State.writeReg, State.writeReg, h.active]
  exact h.withActive _

theorem SameAbove.appendConst (h : SameAbove s s') (str : Str) : SameAbove (s.appendConst str) (s'.appendConst str) := by
  rw [State.appendConst, State.appendConst, h.active]
  exact h.withActive _

theorem SameAbove.bindFun (h : SameAbove s s') (name : Str) (b : List Word) :
    SameAbove (s.bindFun name b) (s'.bindFun name b) := by
  rw [State.bindFun, State.bindFun, h.active]
  exact h.withActive _

theorem SameAbove.emit (h : SameAbove s s') (e : Event) : SameAbove (s.emit e) (s'.emit e) :=
  ⟨h.params, h.active, h.depth, h.status, congrArg (· ++ [e]) h.out⟩

theorem SameAbove.fault (h : SameAbove s s') (kind : FaultKind) (value : Word) :
    SameAbove (s.fault kind value) (s'.fault kind value) := by
  refine ⟨h.params, h.active, h.depth, ?_, h.out⟩
  rw [fault_status, fault_status, h.depth, h.active]

theorem SameAbove.pushFrame (h : SameAbove s s') (child : Frame) : SameAbove (s.pushFrame child) (s'.pushFrame child) :=
  ⟨h.params, rfl, congrArg Nat.succ h.depth, h.status, h.out⟩

theorem SameAbove.endBlock (h : SameAbove s s') (which : BlockKind) (len : Nat) (closed : Bool) :
    SameAbove (s.endBlock which len closed) (s'.endBlock which len closed) := by
  unfold State.endBlock
  rw [h.active, h.depth]
  split
  · exact h.setPc _
  · exact (h.emit _).setPc _

/-! ## Operand checks and shared operations -/

theorem SameAbove.raiseFault (h : SameAbove s s') (kind : FaultKind) (value : Word) :
    SameNext (raiseFault kind value s) (raiseFault kind value s') :=
  sameNext_next (h.fault kind value)

theorem SameAbove.withReg (h : SameAbove s s') {i : Word} {k k' : Nat → Host.Outcome State Fault Refusal}
    (hk : ∀ r, SameNext (k r) (k' r)) : SameNext (withReg i s k) (withReg i s' k') := by
  unfold Machine.withReg
  split
  · exact hk _
  · exact h.raiseFault _ _

theorem SameAbove.withConst (h : SameAbove s s') {j : Word} {k k' : Str → Host.Outcome State Fault Refusal}
    (hk : ∀ name, SameNext (k name) (k' name)) : SameNext (withConst j s k) (withConst j s' k') := by
  unfold Machine.withConst State.validConst State.constAt
  rw [h.active]
  split
  · exact hk _
  · exact h.raiseFault _ _

theorem SameAbove.jumpTo (h : SameAbove s s') (t : Word) : SameNext (jumpTo t s) (jumpTo t s') := by
  unfold Machine.jumpTo
  split
  · exact h.raiseFault _ _
  · exact sameNext_next (h.setPc _)

theorem SameAbove.arithmetic (h : SameAbove s s') (op : Params → Word → Word → AluResult) (a b : Word) :
    SameNext (arithmetic op a b s) (arithmetic op a b s') := by
  refine h.withReg fun ra => h.withReg fun rb => ?_
  rw [h.params, h.readReg, h.readReg]
  cases op s.params (s.readReg ra) (s.readReg rb) with
  | value r => exact sameNext_next (((h.writeReg ra r).writeReg rb 0).adv 2)
  | overflow => exact h.raiseFault _ _
  | divideByZero => exact h.raiseFault _ _

theorem SameAbove.printConst (h : SameAbove s s') (j : Word) : SameNext (printConst j s) (printConst j s') :=
  h.withConst fun _ => sameNext_next ((h.emit _).adv 2)

theorem SameAbove.execPrint (h : SameAbove s s') (m i : Word) : SameNext (execPrint m i s) (execPrint m i s') := by
  unfold Machine.execPrint
  rw [h.params]
  split_ifs with h0 h1
  · refine h.withReg fun r => ?_
    rw [h.readReg]
    exact sameNext_next ((h.emit _).adv 2)
  · split
    · refine h.withReg fun r => ?_
      rw [h.readReg]
      exact h.printConst _
    · exact h.printConst i
  · exact h.raiseFault _ _

theorem SameAbove.execFunctionCall (h : SameAbove s s') (k : Word) :
    SameNext (execFunctionCall k s) (execFunctionCall k s') := by
  refine h.withConst fun name => ?_
  rw [h.active, h.depth, h.params]
  split
  · exact h.raiseFault _ _
  · split
    · exact h.raiseFault _ _
    · exact sameNext_next ((h.adv 1).pushFrame _)

/-- No instruction reads a frame below the active one. -/
theorem SameAbove.exec (h : SameAbove s s') (i : Instr) : SameNext (exec i s) (exec i s') := by
  cases i with
  | nop alt => exact sameNext_next (h.adv 0)
  | unrecognized w =>
    rw [exec_unrecognized, exec_unrecognized, h.depth, h.active]
    exact sameNext_next ((h.emit _).adv 0)
  | push v i => exact h.withReg fun r => sameNext_next ((h.writeReg r v).adv 2)
  | jump t => exact h.jumpTo t
  | jumpIfEqual t i v =>
    rw [exec_jumpIfEqual, exec_jumpIfEqual]
    refine h.withReg fun r => ?_
    rw [h.readReg]
    split
    · exact h.jumpTo t
    · exact sameNext_next (h.adv 3)
  | add a b => exact h.arithmetic aluAdd a b
  | sub a b => exact h.arithmetic aluSub a b
  | mul a b => exact h.arithmetic aluMul a b
  | div a b => exact h.arithmetic aluDiv a b
  | functionDeclare k body closed => exact h.withConst fun name => sameNext_next ((h.bindFun name body).endBlock _ _ closed)
  | print m i => exact h.execPrint m i
  | functionCall k => exact h.execFunctionCall k
  | constantLiteral codes closed => exact sameNext_next ((h.appendConst codes).endBlock _ _ closed)

end

end Sys2Proof.Machine

open Sys2Proof Sys2Proof.Machine

/-- Settles O41: both blocks run the same fetched instruction. -/
theorem framesBelowAreNotRead : Obligations.FramesBelowAreNotRead := by
  intro s s' t hs hp hparams hactive hdepth hstatus hout h
  have hsame : SameAbove s s' := ⟨hparams, hactive, hdepth, hstatus, hout⟩
  obtain ⟨u, u', hu, hu', huu⟩ := hsame.exec s.active.fetch
  have hp' : s'.active.pc < memCap := hactive ▸ hp
  have hstep' := step_eq_exec (hstatus.trans hs) hp'
  rw [step_eq_exec hs hp, hu] at h
  obtain rfl := Host.Outcome.next.inj h
  rw [hactive, hu'] at hstep'
  exact ⟨u', hstep', huu.active, huu.depth, huu.status, huu.out⟩

end

section
/-! SUPPORT. The context stack against the source's nested interpreters: a call is a run of the child, the return a step to
the caller with the child's output. Settles O47 and O48 (46_call_context.md R226). -/

namespace Sys2Proof.Machine

/-! ## Runs of several steps -/

theorem stepsTo_trans {m n : Nat} {s t u : State} (h : stepsTo m s t) (h' : stepsTo n t u) : stepsTo (m + n) s u := by
  induction m generalizing s with
  | zero =>
    obtain rfl : s = t := h
    rwa [Nat.zero_add]
  | succ m ih =>
    obtain ⟨v, hv, hrun⟩ := h
    rw [Nat.succ_add]
    exact ⟨v, hv, ih hrun⟩

theorem stepsTo_params {n : Nat} {s t : State} (h : stepsTo n s t) : t.params = s.params := by
  induction n generalizing s with
  | zero =>
    obtain rfl : s = t := h
    rfl
  | succ n ih =>
    obtain ⟨u, hu, hrun⟩ := h
    exact (ih hrun).trans (step_params hu)

/-- A run from a Running block to one that is not takes a first step. -/
theorem stepsTo_first {n : Nat} {s t : State} (h : stepsTo n s t) (hs : s.status = .running) (ht : t.status ≠ .running) :
    ∃ m u, n = m + 1 ∧ step s = .next u ∧ stepsTo m u t := by
  cases n with
  | zero =>
    obtain rfl : s = t := h
    exact absurd hs ht
  | succ m =>
    obtain ⟨u, hu, hrun⟩ := h
    exact ⟨m, u, rfl, hu, hrun⟩

/-- No step follows the end of a run. -/
theorem stepsTo_stopped {n : Nat} {s t : State} (h : stepsTo n s t) (hs : s.status ≠ .running) : t = s := by
  cases n with
  | zero => exact h.symm
  | succ n =>
    obtain ⟨u, hu, -⟩ := h
    exact absurd hu (step_ne_next hs u)

/-! ## One instruction of a nested run -/

/-- The state an instruction of a Running block leads to: Faulted, Running with the callers it had, or Running in a child. -/
inductive Outgoing (s : State) : State → Prop where
  | fault {t : State} (r : FaultRecord) (ht : t.status = .faulted r) : Outgoing s t
  | stays {t : State} (ht : t.status = .running) (hf : t.parents = s.parents) : Outgoing s t
  | call (child : Frame) : Outgoing s ((s.adv 1).pushFrame child)

theorem exec_outgoing {s : State} (hs : s.status = .running) (i : Instr) : ∃ t, exec i s = .next t ∧ Outgoing s t := by
  obtain ⟨t, ht, he⟩ := exec_effect i s
  refine ⟨t, ht, ?_⟩
  cases he with
  | fault _ kind value => exact .fault _ rfl
  | functionCall k name body => exact .call _
  | _ => exact .stays (by simpa using hs) (by simp)

/-- What the caller goes on from when its child has ended in `u`: its own state past the operand, with the child's output. -/
def State.resumed (s u : State) : State := { s.adv 1 with out := u.out }

theorem called_running {s : State} (hs : s.status = .running) (child : Frame) :
    ((s.adv 1).pushFrame child).status = .running := hs

theorem resumed_running {s : State} (hs : s.status = .running) (u : State) : (s.resumed u).status = .running := hs

/-- The return step takes the end of a called child to the caller's resumption (46_call_context.md R220). -/
theorem step_return {s u : State} {child : Frame} {n : Nat} (hs : s.status = .running)
    (hrun : stepsTo n ((s.adv 1).pushFrame child) u) (hu : u.status = .running) (hend : memCap ≤ u.active.pc)
    (hf : u.parents = ((s.adv 1).pushFrame child).parents) : step u = .next (s.resumed u) := by
  have hp : u.params = ((s.adv 1).pushFrame child).params := stepsTo_params hrun
  rw [step_of_end hu hend, endFrame_child hf, hu, hp, ← hs]
  rfl

/-! ## The cases of a nested run -/

section
variable {fuel : Nat} {s t u : State}

theorem nestedRun_end (h : memCap ≤ s.active.pc) : nestedRun (fuel + 1) s = some s := if_pos h

theorem nestedRun_fault (hp : s.active.pc < memCap) (h : exec s.active.fetch s = .next t) (ht : t.status ≠ .running) :
    nestedRun (fuel + 1) s = some t := by
  simp [nestedRun, Nat.not_le.mpr hp, h, ht]

theorem nestedRun_stays (hp : s.active.pc < memCap) (h : exec s.active.fetch s = .next t) (ht : t.status = .running)
    (hf : t.parents = s.parents) : nestedRun (fuel + 1) s = nestedRun fuel t := by
  simp [nestedRun, Nat.not_le.mpr hp, h, ht, State.depth, hf]

/-- A call runs the child to its end and then, when that is no fault, the caller on. -/
theorem nestedRun_call (hp : s.active.pc < memCap) {child : Frame}
    (h : exec s.active.fetch s = .next ((s.adv 1).pushFrame child)) (hs : s.status = .running) :
    nestedRun (fuel + 1) s = (nestedRun fuel ((s.adv 1).pushFrame child)).bind fun u =>
      if u.status = .running then nestedRun fuel (s.resumed u) else some u := by
  have hlt : ¬ memCap ≤ s.active.pc := Nat.not_le.mpr hp
  simp only [nestedRun, hlt, h, State.depth]
  cases nestedRun fuel ((s.adv 1).pushFrame child) <;> simp [State.resumed, hs]

end

/-- More fuel changes no answer. -/
theorem nestedRun_mono {fuel fuel' : Nat} {s u : State} (hs : s.status = .running) (h : nestedRun fuel s = some u)
    (hle : fuel ≤ fuel') : nestedRun fuel' s = some u := by
  induction fuel generalizing fuel' s u with
  | zero => simp [nestedRun] at h
  | succ fuel ih =>
    obtain ⟨m, rfl⟩ : ∃ m, fuel' = m + 1 := ⟨fuel' - 1, by omega⟩
    have hle' : fuel ≤ m := Nat.le_of_succ_le_succ hle
    by_cases hp : memCap ≤ s.active.pc
    · rwa [nestedRun_end hp] at h ⊢
    have hp := Nat.lt_of_not_le hp
    obtain ⟨t, ht, hout⟩ := exec_outgoing hs s.active.fetch
    cases hout with
    | fault r hr =>
      have hstop : t.status ≠ .running := by simp [hr]
      rwa [nestedRun_fault hp ht hstop] at h ⊢
    | stays hrun hf =>
      rw [nestedRun_stays hp ht hrun hf] at h ⊢
      exact ih hrun h hle'
    | call child =>
      rw [nestedRun_call hp ht hs, Option.bind_eq_some_iff] at h ⊢
      obtain ⟨v, hv, h⟩ := h
      refine ⟨v, ih (called_running hs child) hv hle', ?_⟩
      split at h
      · rw [if_pos ‹_›]
        exact ih (resumed_running hs v) h hle'
      · rwa [if_neg ‹_›]

/-- A nested run ends at the end of its own frame, the callers kept, or at a fault; and the block reaches its end by steps. -/
theorem nestedRun_sound {fuel : Nat} {s u : State} (hs : s.status = .running) (h : nestedRun fuel s = some u) :
    (∃ n, stepsTo n s u) ∧
      ((u.status = .running ∧ u.parents = s.parents ∧ memCap ≤ u.active.pc) ∨ ∃ r, u.status = .faulted r) := by
  induction fuel generalizing s u with
  | zero => simp [nestedRun] at h
  | succ fuel ih =>
    by_cases hp : memCap ≤ s.active.pc
    · rw [nestedRun_end hp] at h
      obtain rfl := Option.some.inj h
      exact ⟨⟨0, rfl⟩, .inl ⟨hs, rfl, hp⟩⟩
    have hp := Nat.lt_of_not_le hp
    obtain ⟨t, ht, hout⟩ := exec_outgoing hs s.active.fetch
    have hstep : step s = .next t := (step_eq_exec hs hp).trans ht
    cases hout with
    | fault r hr =>
      have hstop : t.status ≠ .running := by simp [hr]
      rw [nestedRun_fault hp ht hstop] at h
      obtain rfl := Option.some.inj h
      exact ⟨⟨1, t, hstep, rfl⟩, .inr ⟨r, hr⟩⟩
    | stays hrun hf =>
      rw [nestedRun_stays hp ht hrun hf] at h
      obtain ⟨⟨n, hn⟩, hend⟩ := ih hrun h
      exact ⟨⟨n + 1, t, hstep, hn⟩, hf ▸ hend⟩
    | call child =>
      rw [nestedRun_call hp ht hs, Option.bind_eq_some_iff] at h
      obtain ⟨v, hv, h⟩ := h
      obtain ⟨⟨n, hn⟩, ⟨hrun, hf, hend⟩ | ⟨r, hr⟩⟩ := ih (called_running hs child) hv
      · rw [if_pos hrun] at h
        obtain ⟨⟨m, hm⟩, hend'⟩ := ih (resumed_running hs v) h
        have hreturn : step v = .next (s.resumed v) := step_return hs hn hrun hend hf
        have hchild : stepsTo (n + 1) s v := ⟨_, hstep, hn⟩
        have hrest : stepsTo (m + 1) v u := ⟨_, hreturn, hm⟩
        exact ⟨⟨_, stepsTo_trans hchild hrest⟩, hend'⟩
      · have hstop : v.status ≠ .running := by simp [hr]
        rw [if_neg hstop] at h
        obtain rfl := Option.some.inj h
        exact ⟨⟨n + 1, _, hstep, hn⟩, .inr ⟨r, hr⟩⟩

/-- A run of steps that ends passes through the end of the nested run from its first state, by induction on its length: a
child's run and the caller's run after it are both shorter. -/
theorem nestedRun_complete {n : Nat} {s t : State} (hs : s.status = .running) (h : stepsTo n s t)
    (ht : t.status ≠ .running) : ∃ fuel u, nestedRun fuel s = some u ∧
      ((u.status ≠ .running ∧ t = u) ∨ (u.status = .running ∧ ∃ m, m ≤ n ∧ stepsTo m u t)) := by
  induction n using Nat.strong_induction_on generalizing s with
  | _ n ih =>
    by_cases hp : memCap ≤ s.active.pc
    · exact ⟨1, s, nestedRun_end hp, .inr ⟨hs, n, le_refl n, h⟩⟩
    have hp := Nat.lt_of_not_le hp
    obtain ⟨n, v, rfl, hv, hn⟩ := stepsTo_first h hs ht
    obtain ⟨v', hexec, hout⟩ := exec_outgoing hs s.active.fetch
    obtain rfl : v' = v := by simpa [step_eq_exec hs hp, hexec] using hv
    cases hout with
    | fault r hr =>
      have hstop : v'.status ≠ .running := by simp [hr]
      exact ⟨1, v', nestedRun_fault hp hexec hstop, .inl ⟨hstop, stepsTo_stopped hn hstop⟩⟩
    | stays hrun hf =>
      obtain ⟨fuel, u, hu, hend⟩ := ih n (Nat.lt_succ_self n) hrun hn
      refine ⟨fuel + 1, u, (nestedRun_stays hp hexec hrun hf).trans hu, hend.imp id (And.imp id ?_)⟩
      exact fun ⟨m, hm, hmt⟩ => ⟨m, Nat.le_succ_of_le hm, hmt⟩
    | call child =>
      obtain ⟨fuel, u, hu, ⟨hstop, htu⟩ | ⟨hrun, m, hm, hmt⟩⟩ := ih n (Nat.lt_succ_self n) (called_running hs child) hn
      · refine ⟨fuel + 1, u, ?_, .inl ⟨hstop, htu⟩⟩
        rw [nestedRun_call hp hexec hs, hu, Option.bind_some, if_neg hstop]
      · obtain ⟨⟨_, hchild⟩, ⟨-, hf, hend⟩ | ⟨r, hr⟩⟩ :=
          nestedRun_sound (called_running hs child) hu
        case inr => simp [hrun] at hr
        obtain ⟨m, w, rfl, hw, hwt⟩ := stepsTo_first hmt hrun ht
        have hreturn : step u = .next (s.resumed u) := step_return hs hchild hrun hend hf
        obtain rfl : s.resumed u = w := by simpa [hreturn] using hw
        obtain ⟨fuel', u', hu', hend'⟩ := ih m (by omega) (resumed_running hs u) hwt
        refine ⟨max fuel fuel' + 1, u', ?_, hend'.imp id (And.imp id fun ⟨k, hk, hkt⟩ => ⟨k, by omega, hkt⟩)⟩
        rw [nestedRun_call hp hexec hs, nestedRun_mono (called_running hs child) hu (Nat.le_max_left ..),
          Option.bind_some, if_pos hrun]
        exact nestedRun_mono (resumed_running hs u) hu' (Nat.le_max_right ..)

end Sys2Proof.Machine

open Sys2Proof Sys2Proof.Machine

/-- Settles O47, by induction on the fuel. -/
theorem nestedRunIsAStackRun : Obligations.NestedRunIsAStackRun := fun _ _ _ => nestedRun_sound

/-- Settles O48: at depth 1 the one step after the end of the nested run halts the block. -/
theorem endedStackRunIsANestedRun : Obligations.EndedStackRunIsANestedRun := by
  intro n s t hs htop h ht
  obtain ⟨fuel, u, hu, ⟨hstop, htu⟩ | ⟨hrun, m, -, hmt⟩⟩ := nestedRun_complete hs h ht
  · exact ⟨fuel, u, hu, .inr ⟨hstop, htu⟩⟩
  · obtain ⟨-, ⟨-, hf, hend⟩ | ⟨r, hr⟩⟩ := nestedRun_sound hs hu
    case inr => simp [hrun] at hr
    obtain ⟨m, w, rfl, hw, hwt⟩ := stepsTo_first hmt hrun ht
    have hhalt : step u = .next { u with status := .halted } := by
      rw [step_of_end hrun hend, endFrame_top (hf.trans htop)]
    obtain rfl : { u with status := .halted } = w := Host.Outcome.next.inj (hhalt.symm.trans hw)
    exact ⟨fuel, u, hu, .inl ⟨hrun, stepsTo_stopped hwt (by simp)⟩⟩

end

section
/-! SUPPORT. The host's operations: what each answers in each status, what load writes and dump reads in the top-level frame,
and how a run ends. Settles O12, O49 to O54 (70_reset_and_hazards.md, 10_state.md R31, R35). -/

namespace Sys2Proof.Machine

/-! ## Refusals and answers -/

theorem hostStart_running {s : State} (h : s.status = .running) : hostStart s = .refused .hostActsWhileRunning :=
  betweenRuns_running h _

theorem hostStart_faulted {s : State} {r : FaultRecord} (h : s.status = .faulted r) :
    hostStart s = .refused (.runAfterFault r) := by
  simp [hostStart, betweenRuns, h]

theorem hostStart_stopped {s : State} (h : s.status = .idle ∨ s.status = .halted) :
    hostStart s = .next { s with status := .running } :=
  hostStart_next.mpr ⟨h, rfl⟩

theorem hostRun_running {s : State} (n : Nat) (h : s.status = .running) : hostRun n s = .unavailable := by
  rw [hostRun, hostStart_running h]

theorem hostRun_faulted {s : State} {r : FaultRecord} (n : Nat) (h : s.status = .faulted r) : hostRun n s = .ended s := by
  rw [hostRun, hostStart_faulted h]

theorem hostRun_stopped {s : State} (n : Nat) (h : s.status = .idle ∨ s.status = .halted) :
    hostRun n s = runLoop n { s with status := .running } := by
  rw [hostRun, hostStart_stopped h]

/-! ## A followed run -/

theorem runLoop_stopped {s : State} (n : Nat) (h : s.status ≠ .running) : runLoop n s = .ended s := by
  cases n with
  | zero => simp [runLoop, h]
  | succ n =>
    cases hs : s.status with
    | running => exact absurd hs h
    | _ => simp [runLoop, step, hs]

theorem runLoop_next {s t : State} (n : Nat) (h : step s = .next t) : runLoop (n + 1) s = runLoop n t := by
  rw [runLoop, h]

/-- A step leads to Running, Halted or Faulted, never to Idle (10_state.md R31). -/
theorem step_status_ne_idle {s t : State} (h : step s = .next t) : t.status ≠ .idle := by
  have hs := (step_cases h).1
  rcases faultIsPrecise s t hs h with hrun | ⟨rfl, -⟩ | ⟨r, -, -, rfl⟩ <;> simp [*]

theorem ended_of_ne {s : State} (h1 : s.status ≠ .running) (h2 : s.status ≠ .idle) :
    s.status = .halted ∨ ∃ r, s.status = .faulted r := by
  cases hs : s.status with
  | idle => exact absurd hs h2
  | running => exact absurd hs h1
  | halted => exact .inl rfl
  | faulted r => exact .inr ⟨r, rfl⟩

/-- A followed run that ended took at most as many steps as it was followed, and ended Halted or Faulted (R273). -/
theorem runLoop_ended {n : Nat} {s t : State} (hs : s.status ≠ .idle) (h : runLoop n s = .ended t) :
    (∃ m, m ≤ n ∧ stepsTo m s t) ∧ (t.status = .halted ∨ ∃ r, t.status = .faulted r) := by
  induction n generalizing s with
  | zero =>
    have hstop : s.status ≠ .running := fun hrun => by simp [runLoop, hrun] at h
    obtain rfl : s = t := by simpa [runLoop, hstop] using h
    exact ⟨⟨0, le_refl 0, rfl⟩, ended_of_ne hstop hs⟩
  | succ n ih =>
    by_cases hrun : s.status = .running
    · obtain ⟨u, hu⟩ := step_total hrun
      rw [runLoop_next n hu] at h
      obtain ⟨⟨m, hm, hmt⟩, hend⟩ := ih (step_status_ne_idle hu) h
      exact ⟨⟨m + 1, Nat.succ_le_succ hm, u, hu, hmt⟩, hend⟩
    · rw [runLoop_stopped _ hrun] at h
      obtain rfl := RunAnswer.ended.inj h
      exact ⟨⟨0, Nat.zero_le _, rfl⟩, ended_of_ne hrun hs⟩

/-! ## The top-level frame -/

/-- The top-level frame is the first of the stack (10_state.md R22). -/
theorem stack_getElem?_zero (s : State) : s.stack[0]? = some s.topLevel := by
  have hstack : s.stack = (s.active :: s.parents).reverse := by simp [State.stack]
  rw [hstack, ← List.head?_eq_getElem?, List.head?_reverse, List.getLast?_cons, State.topLevel, List.getLastD_eq_getLast?]

theorem dumpLimit_cast (limit : Int) (cap : Nat) : (dumpLimit limit cap : Int) = min (max limit 0) (cap : Int) := by
  simp [dumpLimit]

theorem window_zero_getD (m : Memory) {n i : Nat} (h : i < n) : (m.window 0 n).getD i 0 = m.get i := by
  rw [window_getD, if_pos h, Nat.zero_add]

end Sys2Proof.Machine

open Sys2Proof Sys2Proof.Machine

/-- Settles O12: each of the four setters, and no step outside Running. -/
theorem statusRegister : Obligations.StatusRegister := by
  refine ⟨fun s hs => ?new, fun s hs => ?start, fun s hs hp hd => ?halt, fun s k v => ?raise, fun s hs t => ?stopped⟩
  case new => exact ⟨_, hostNew_next.mpr ⟨hs, rfl⟩, rfl⟩
  case start => exact ⟨_, hostStart_stopped hs, rfl⟩
  case halt => exact ⟨_, (stepAtTheEndOfAFrame s hs hp).1 hd, rfl⟩
  case raise => exact ⟨s.fault k v, rfl, rfl⟩
  case stopped => exact step_ne_next hs t

/-- Settles O49: the refusals by name while Running, and what answers otherwise. -/
theorem hostActsOnlyBetweenRuns : Obligations.HostActsOnlyBetweenRuns := by
  intro s words ml rl n
  refine ⟨fun hs => ?running, fun hs => ?stopped⟩
  case running =>
    exact ⟨betweenRuns_running hs _, betweenRuns_running hs _, hostStart_running hs, betweenRuns_running hs _,
      hostRun_running n hs⟩
  case stopped =>
    exact ⟨⟨_, hostNew_next.mpr ⟨hs, rfl⟩⟩, ⟨_, hostLoad_next.mpr ⟨hs, rfl⟩⟩, ⟨_, betweenRuns_of_ne hs _⟩,
      fun _ => hostStart_faulted, fun h => ⟨_, hostStart_stopped h⟩⟩

/-- Settles O50: `new` answers between runs, and both it and reset give a new block. -/
theorem newBlockState : Obligations.NewBlockState := by
  refine ⟨fun s hs => ⟨_, hostNew_next.mpr ⟨hs, rfl⟩⟩, fun t ht => ?_⟩
  obtain ⟨p, rfl⟩ : ∃ p, t = State.new p := by
    rcases ht with rfl | ⟨s, h⟩
    · exact ⟨hardwareParams, rfl⟩
    · exact ⟨s.params, (hostNew_next.mp h).2⟩
  exact ⟨rfl, fun _ _ => rfl, fun _ _ => rfl, rfl, fun _ => rfl, rfl, rfl, rfl⟩

/-- Settles O51: `load` changes the memory of the first frame of the stack. -/
theorem loadWritesTheImage : Obligations.LoadWritesTheImage := by
  intro words s hs
  refine ⟨_, s.topLevel, { s.topLevel with mem := s.topLevel.mem.load 0 words }, hostLoad_next.mpr ⟨hs, rfl⟩,
    stack_getElem?_zero s, ?_, fun j hj => ?_, rfl, rfl, rfl, rfl, fun k => ?_, changeTopLevel_params ..,
    changeTopLevel_status .., changeTopLevel_out ..⟩
  · rw [changeTopLevel_stack, List.getElem?_modifyHead_zero, stack_getElem?_zero, Option.map_some]
  · rw [get_load _ 0 words (Nat.zero_le j) hj, Nat.sub_zero]
  · rw [changeTopLevel_stack, List.getElem?_modifyHead_succ]

/-- Settles O52: the two windows from index 0, as long as the clamped limits. -/
theorem dumpReadsTheTopLevelFrame : Obligations.DumpReadsTheTopLevelFrame := by
  intro ml rl s f hs hf
  obtain rfl : s.topLevel = f := Option.some.inj ((stack_getElem?_zero s).symm.trans hf)
  refine ⟨_, _, hostDump_next.mpr ⟨hs, rfl, rfl⟩, ?_, ?_, fun i hi => ?_, fun a ha => ?_⟩
  · rw [window_length, dumpLimit_cast]
  · rw [window_length, dumpLimit_cast]
  · exact window_zero_getD _ (by simpa using hi)
  · exact window_zero_getD _ (by simpa using ha)

/-- Settles O53: a run follows the steps from the state set Running; a Faulted block is not run, and a Halted one at its end
halts again. -/
theorem runEndsHaltedOrFaulted : Obligations.RunEndsHaltedOrFaulted := by
  refine ⟨fun n s t hs h => ?followed, fun n s r => hostRun_faulted n, fun n s hs htop hp => ?again⟩
  case followed =>
    rw [hostRun_stopped n hs] at h
    exact runLoop_ended (by simp) h
  case again =>
    have hhalt : step { s with status := .running } = .next s := by
      refine (step_of_end (s := { s with status := .running }) rfl hp).trans ?_
      rw [endFrame_top (s := { s with status := .running }) htop, ← hs]
    rw [hostRun_stopped _ (.inr hs), runLoop_next n hhalt, runLoop_stopped n (by simp [hs])]

/-- Settles O54: a byte's two's-complement value, at every position. -/
theorem imageBytesAreSignExtended : Obligations.ImageBytesAreSignExtended := by
  intro bytes j b h
  rw [imageWords, List.getElem?_map, h, Option.map_some, BitVec.toInt_eq_toNat_cond]
  by_cases hb : b.toNat < 128
  · rw [if_pos hb, if_pos (by omega)]
  · rw [if_neg hb, if_neg (by omega)]
    rfl

end
